-- ==== Sys2Proof/Word.lean ====
section
/-! DEFINITION. The widths of the machine's data: bytes, 16-bit words, register numbers and 12-bit addresses
(spec/00_scope.md R6, spec/10_state.md R10, R13, R18). -/

namespace Sys2Proof

/-- One byte: a V register, a timer, a memory cell (R10, R22, R23, R40). -/
abbrev Byte := BitVec 8

/-- Sixteen bits: an instruction word, PC, I, a stack entry (R13, R18, R19, R60). -/
abbrev Word := BitVec 16

/-- The number of a general register, V0 to VF (R10). -/
abbrev Reg := Fin 16

/-- The immediate address field `nnn` of an instruction, twelve bits (R61). -/
abbrev Addr12 := BitVec 12

/-- The register that doubles as the flags register, VF (R11). -/
abbrev Reg.vf : Reg := 15

end Sys2Proof
end

