-- ==== Sys2Proof/Syntax.lean ====
section
/-! DEFINITION. The instructions: one constructor per row of spec/opcode_table.json (spec/30_encoding.md
R65), in the table's order. Each constructor holds exactly the operand fields of its row (R61), the unused
`y` of SHR and SHL included (R71), so that no bit of an encoding is lost. -/

namespace Sys2Proof

/-- The 34 instructions of the machine (R65, R66). An unknown opcode is no instruction (R68): the decoder
answers `Decoded.unknown` for it. -/
inductive Instr where
  /-- 00E0 `CLS` (R160) -/
  | cls
  /-- 00EE `RET` (R100) -/
  | ret
  /-- 1nnn `JP nnn` (R101) -/
  | jp (nnn : Addr12)
  /-- 2nnn `CALL nnn` (R102) -/
  | call (nnn : Addr12)
  /-- 3xkk `SE Vx, kk` (R104) -/
  | seImm (x : Reg) (kk : Byte)
  /-- 4xkk `SNE Vx, kk` (R105) -/
  | sneImm (x : Reg) (kk : Byte)
  /-- 5xy0 `SE Vx, Vy` (R106) -/
  | seReg (x y : Reg)
  /-- 6xkk `LD Vx, kk` (R120) -/
  | ldImm (x : Reg) (kk : Byte)
  /-- 7xkk `ADD Vx, kk` (R121) -/
  | addImm (x : Reg) (kk : Byte)
  /-- 8xy0 `LD Vx, Vy` (R124) -/
  | ldReg (x y : Reg)
  /-- 8xy1 `OR Vx, Vy` (R125) -/
  | orReg (x y : Reg)
  /-- 8xy2 `AND Vx, Vy` (R126) -/
  | andReg (x y : Reg)
  /-- 8xy3 `XOR Vx, Vy` (R127) -/
  | xorReg (x y : Reg)
  /-- 8xy4 `ADD Vx, Vy` (R128) -/
  | addReg (x y : Reg)
  /-- 8xy5 `SUB Vx, Vy` (R129) -/
  | subReg (x y : Reg)
  /-- 8xy6 `SHR Vx`; `y` is encoded and not used (R71, R130) -/
  | shr (x y : Reg)
  /-- 8xy7 `SUBN Vx, Vy` (R131) -/
  | subnReg (x y : Reg)
  /-- 8xyE `SHL Vx`; `y` is encoded and not used (R71, R132) -/
  | shl (x y : Reg)
  /-- 9xy0 `SNE Vx, Vy` (R107) -/
  | sneReg (x y : Reg)
  /-- Annn `LD I, nnn` (R140) -/
  | ldI (nnn : Addr12)
  /-- Bnnn `JP V0, nnn` (R103) -/
  | jpV0 (nnn : Addr12)
  /-- Cxkk `RND Vx, kk` (R133) -/
  | rnd (x : Reg) (kk : Byte)
  /-- Dxyn `DRW Vx, Vy, n`; `n` is the number of sprite rows (R161) -/
  | drw (x y : Reg) (n : Nat)
  /-- Ex9E `SKP Vx` (R170) -/
  | skp (x : Reg)
  /-- ExA1 `SKNP Vx` (R171) -/
  | sknp (x : Reg)
  /-- Fx07 `LD Vx, DT` (R173) -/
  | ldVxDt (x : Reg)
  /-- Fx0A `LD Vx, K` (R172) -/
  | ldVxK (x : Reg)
  /-- Fx15 `LD DT, Vx` (R174) -/
  | ldDtVx (x : Reg)
  /-- Fx18 `LD ST, Vx` (R175) -/
  | ldStVx (x : Reg)
  /-- Fx1E `ADD I, Vx` (R141) -/
  | addI (x : Reg)
  /-- Fx29 `LD F, Vx` (R142) -/
  | ldF (x : Reg)
  /-- Fx33 `LD B, Vx` (R143) -/
  | ldB (x : Reg)
  /-- Fx55 `LD [I], Vx` (R144) -/
  | storeRegs (x : Reg)
  /-- Fx65 `LD Vx, [I]` (R145) -/
  | loadRegs (x : Reg)
  deriving DecidableEq, Repr

end Sys2Proof
end

