-- ==== Sys2Proof/Decode.lean ====
section
/-! DEFINITION. Decoding a word or a run of bytes into an instruction, and encoding an instruction into its
word (spec/30_encoding.md R60 to R72). The two are written separately, each from the spec's tables. -/

namespace Sys2Proof

/-! ## Fields (R61): each extracted from the word on its own -/

/-- `o = op[15:12]`, the primary opcode. -/
def fieldO (op : Word) : BitVec 4 := op.extractLsb' 12 4

/-- `x = op[11:8]`, the register number of Vx. -/
def fieldX (op : Word) : Reg := (op.extractLsb' 8 4).toFin

/-- `y = op[7:4]`, the register number of Vy. -/
def fieldY (op : Word) : Reg := (op.extractLsb' 4 4).toFin

/-- `n = op[3:0]`, the secondary opcode or the sprite height. -/
def fieldN (op : Word) : BitVec 4 := op.extractLsb' 0 4

/-- `kk = op[7:0]`, the immediate byte or the secondary opcode. -/
def fieldKK (op : Word) : Byte := op.extractLsb' 0 8

/-- `nnn = op[11:0]`, the immediate address. -/
def fieldNNN (op : Word) : Addr12 := op.extractLsb' 0 12

/-! ## Decode (R64) -/

/-- What a word decodes to: "one of the 34 instructions or UNKNOWN" (R86). -/
inductive Decoded where
  | instr (i : Instr)
  /-- An unknown opcode, by the word itself (R68). -/
  | unknown (op : Word)
  deriving DecidableEq, Repr

/-- Family 8: "case n of ..." (R64, R122). -/
def decodeAlu (op : Word) : Decoded :=
  let x := fieldX op
  let y := fieldY op
  match fieldN op with
  | 0x0 => .instr (.ldReg x y)
  | 0x1 => .instr (.orReg x y)
  | 0x2 => .instr (.andReg x y)
  | 0x3 => .instr (.xorReg x y)
  | 0x4 => .instr (.addReg x y)
  | 0x5 => .instr (.subReg x y)
  | 0x6 => .instr (.shr x y)
  | 0x7 => .instr (.subnReg x y)
  | 0xE => .instr (.shl x y)
  | _ => .unknown op

/-- Family 0: matched on all 16 bits (R64, R70). -/
def decodeFixed (op : Word) : Decoded :=
  if op = 0x00E0 then .instr .cls
  else if op = 0x00EE then .instr .ret
  else .unknown op

/-- Family E: "case kk of 0x9E ... 0xA1 ..." (R64). -/
def decodeKey (op : Word) : Decoded :=
  let x := fieldX op
  match fieldKK op with
  | 0x9E => .instr (.skp x)
  | 0xA1 => .instr (.sknp x)
  | _ => .unknown op

/-- Family F: "case kk of 0x07, 0x0A, ..." (R64, R65). -/
def decodeMisc (op : Word) : Decoded :=
  let x := fieldX op
  match fieldKK op with
  | 0x07 => .instr (.ldVxDt x)
  | 0x0A => .instr (.ldVxK x)
  | 0x15 => .instr (.ldDtVx x)
  | 0x18 => .instr (.ldStVx x)
  | 0x1E => .instr (.addI x)
  | 0x29 => .instr (.ldF x)
  | 0x33 => .instr (.ldB x)
  | 0x55 => .instr (.storeRegs x)
  | 0x65 => .instr (.loadRegs x)
  | _ => .unknown op

/-- `decode(op)` (R64): total on all 65536 words, a function of the word alone (R67). -/
def decodeWord (op : Word) : Decoded :=
  let x := fieldX op
  let y := fieldY op
  match fieldO op with
  | 0x0 => decodeFixed op
  | 0x1 => .instr (.jp (fieldNNN op))
  | 0x2 => .instr (.call (fieldNNN op))
  | 0x3 => .instr (.seImm x (fieldKK op))
  | 0x4 => .instr (.sneImm x (fieldKK op))
  | 0x5 => if fieldN op = 0 then .instr (.seReg x y) else .unknown op
  | 0x6 => .instr (.ldImm x (fieldKK op))
  | 0x7 => .instr (.addImm x (fieldKK op))
  | 0x8 => decodeAlu op
  | 0x9 => if fieldN op = 0 then .instr (.sneReg x y) else .unknown op
  | 0xA => .instr (.ldI (fieldNNN op))
  | 0xB => .instr (.jpV0 (fieldNNN op))
  | 0xC => .instr (.rnd x (fieldKK op))
  | 0xD => .instr (.drw x y (fieldN op).toNat)
  | 0xE => decodeKey op
  | _ => decodeMisc op

/-! ## Bytes (R50, R60): one big-endian word an instruction -/

/-- The word two bytes make, the byte at the lower address high (R50). -/
def wordOfBytes (hi lo : Byte) : Word := hi ++ lo

/-- The high and the low byte of a word, in memory order (R50). -/
def bytesOfWord (w : Word) : Byte × Byte := (w.extractLsb' 8 8, w.extractLsb' 0 8)

/-- Why a run of bytes gives no instruction. -/
inductive DecodeError where
  /-- The word matches no row of R65 (R68). -/
  | unknownOpcode (op : Word)
  /-- Fewer than two bytes are left, and an instruction is two bytes (R60). -/
  | truncated
  deriving DecidableEq, Repr

/-- Decoding a run of bytes: the instruction at its head and the bytes after it, or why there is none. -/
def decodeBytes : List Byte → Except DecodeError (Instr × List Byte)
  | hi :: lo :: rest =>
    match decodeWord (wordOfBytes hi lo) with
    | .instr i => .ok (i, rest)
    | .unknown op => .error (.unknownOpcode op)
  | _ => .error .truncated

/-- HOST INTERFACE. The instruction the decoder reads from the word whose bits are `w`, of which the opcode
table gives `nbits` (16 in every row); the bits above `nbits` are zero. The word is laid out in memory order,
high byte first (R50), and given to the decoder as bytes. -/
def decodeTableWord (nbits w : Nat) : Option Instr :=
  let bytes := bytesOfWord (BitVec.ofNat 16 (w % 2 ^ nbits))
  match decodeBytes [bytes.1, bytes.2] with
  | .ok (i, _) => some i
  | .error _ => none

/-! ## Encode (R62, R65): "the fixed hexadecimal digits are kept and each field letter is replaced by the
operand's value" (R73) -/

/-- A register number as the four bits of its field. -/
def regBits (x : Reg) : BitVec 4 := BitVec.ofNat 4 x.val

/-- Format NNN: `o` and a 12-bit address (R62). -/
def wordNNN (o : BitVec 4) (nnn : Addr12) : Word := o ++ nnn

/-- Format XKK: `o`, `x` and a byte (R62); format XSUB has the same shape, its byte a secondary opcode. -/
def wordXKK (o : BitVec 4) (x : Reg) (kk : Byte) : Word := (o ++ regBits x : BitVec 8) ++ kk

/-- Formats XY and XYN: `o`, `x`, `y` and a last nibble, fixed in XY and the row count in XYN (R62). -/
def wordXYN (o : BitVec 4) (x y : Reg) (n : BitVec 4) : Word :=
  (o ++ regBits x : BitVec 8) ++ (regBits y ++ n : BitVec 8)

/-- The instruction's word, from the pattern column of R65. Of an ill-formed Dxyn the low four bits of `n`. -/
def encode : Instr → Word
  | .cls => 0x00E0
  | .ret => 0x00EE
  | .jp nnn => wordNNN 0x1 nnn
  | .call nnn => wordNNN 0x2 nnn
  | .seImm x kk => wordXKK 0x3 x kk
  | .sneImm x kk => wordXKK 0x4 x kk
  | .seReg x y => wordXYN 0x5 x y 0x0
  | .ldImm x kk => wordXKK 0x6 x kk
  | .addImm x kk => wordXKK 0x7 x kk
  | .ldReg x y => wordXYN 0x8 x y 0x0
  | .orReg x y => wordXYN 0x8 x y 0x1
  | .andReg x y => wordXYN 0x8 x y 0x2
  | .xorReg x y => wordXYN 0x8 x y 0x3
  | .addReg x y => wordXYN 0x8 x y 0x4
  | .subReg x y => wordXYN 0x8 x y 0x5
  | .shr x y => wordXYN 0x8 x y 0x6
  | .subnReg x y => wordXYN 0x8 x y 0x7
  | .shl x y => wordXYN 0x8 x y 0xE
  | .sneReg x y => wordXYN 0x9 x y 0x0
  | .ldI nnn => wordNNN 0xA nnn
  | .jpV0 nnn => wordNNN 0xB nnn
  | .rnd x kk => wordXKK 0xC x kk
  | .drw x y n => wordXYN 0xD x y (BitVec.ofNat 4 n)
  | .skp x => wordXKK 0xE x 0x9E
  | .sknp x => wordXKK 0xE x 0xA1
  | .ldVxDt x => wordXKK 0xF x 0x07
  | .ldVxK x => wordXKK 0xF x 0x0A
  | .ldDtVx x => wordXKK 0xF x 0x15
  | .ldStVx x => wordXKK 0xF x 0x18
  | .addI x => wordXKK 0xF x 0x1E
  | .ldF x => wordXKK 0xF x 0x29
  | .ldB x => wordXKK 0xF x 0x33
  | .storeRegs x => wordXKK 0xF x 0x55
  | .loadRegs x => wordXKK 0xF x 0x65

end Sys2Proof
end

