-- ==== Sys2Proof/Config.lean ====
section
/-! DEFINITION. What one machine fixes (spec/00_scope.md R6) and the free values of the spec's two
sources of non-determinism (spec/93_implementation_defined.md U9, U10). -/

namespace Sys2Proof.Config

/-- MEM_SIZE: addresses 0x000 to 0xFFF (R6, R40). -/
@[simp] abbrev memSize : Nat := 0x1000

/-- FONT_BASE, the first byte of the glyph table (R6, R45). -/
@[simp] abbrev fontBase : Nat := 0x050

/-- FB_BASE, the first byte of the framebuffer (R6, R44). -/
@[simp] abbrev fbBase : Nat := 0x0A0

/-- The framebuffer's size in bytes, 64 by 32 pixels of one bit (R6, R44). -/
@[simp] abbrev fbSize : Nat := 256

/-- Screen width in pixels (R44). -/
@[simp] abbrev screenWidth : Nat := 64

/-- Screen height in pixels (R44). -/
@[simp] abbrev screenHeight : Nat := 32

/-- PROG_BASE, where `LoadProgram` places byte 0 of a ROM, and the reset PC (R6, R32, R48). -/
@[simp] abbrev progBase : Nat := 0x200

/-- PROG_MAX, the largest ROM `LoadProgram` accepts (R6, R222). -/
@[simp] abbrev progMax : Nat := 3584

/-- STACK_DEPTH, the number of call-stack entries (R6, R19). -/
@[simp] abbrev stackDepth : Nat := 16

/-- FREE VALUE (assumption 1). The key state the host presents on a Step whose inputs `State.pending` does
not list, by draw number. Nothing is known of it: R80, R207, U10 "a free 16-bit input per Step". -/
opaque freeKeys : Nat → BitVec 16

/-- FREE VALUE (assumption 1). The random byte the host presents on such a Step, by draw number. Nothing is
known of it: R80, R133, R208, U9 "a free 8-bit draw per Step". -/
opaque freeRnd : Nat → Byte

end Sys2Proof.Config
end

