-- ==== Sys2Proof/Machine/State.lean ====
section
/-! DEFINITION. The state of the machine as plain data (spec/10_state.md R10 to R33), the reset state (R32), and
the reasons a step can stop. The spec's state is "the tuple ( V[0..15], I, PC, Stack[0..15], SP, DT, ST,
DisplayDirty, AudioTrigger, Halt, Mem[0x000..0xFFF] ) and nothing else"; the last four fields of `State` are the
model's own, for the inputs and the output of a Step, which `step` and `exec` take and give through the state. -/

namespace Sys2Proof.Machine

/-- The causes a `raise` records in Halt (R27, R190, spec/00_scope.md R8). -/
inductive Cause where
  /-- A 2nnn with SP = 15 (R191). -/
  | stackOverflow
  /-- A 00EE with SP = -1 (R192). -/
  | stackUnderflow
  /-- A fetch, load or store at an address above 0xFFF (R193). -/
  | addressFault
  deriving DecidableEq, Repr

/-- The status a Step returns (R89, R190). -/
inductive Status where
  | ok
  | unknownOpcode
  | stackOverflow
  | stackUnderflow
  | addressFault
  deriving DecidableEq, Repr

/-- The two inputs of one Step (R31, R80): `keys`, bit k = 1 when key k is pressed (R207), and the random byte
`rnd` (R208). -/
structure StepInput where
  keys : BitVec 16
  rnd : Byte
  deriving DecidableEq, Repr

/-- Memory as (address, byte) pairs; `Memory.read` and `Memory.wf` in Machine/Memory.lean say what a list means
and which lists are canonical (R29, R40). -/
abbrev Memory := List Host.Cell

structure State where
  /-- V0 to VF, the general registers; `v[15]` is VF (R10, R11). -/
  v : Vector Byte 16
  /-- I, the index register (R18). -/
  i : Word
  /-- PC: between Steps the address of the next instruction, inside one that of the instruction executed (R13). -/
  pc : Word
  /-- Stack[0] to Stack[15], the return addresses; not in memory (R19). -/
  stack : Vector Word 16
  /-- The call depth, SP + 1: "a model may store SP as ... a depth 0..16 with SP = depth - 1" (R20). -/
  depth : Fin 17
  /-- DelayTimer (R22). -/
  dt : Byte
  /-- SoundTimer (R23). -/
  st : Byte
  /-- The DisplayDirty edge flag (R24). -/
  displayDirty : Bool
  /-- The AudioTrigger edge flag (R25). -/
  audioTrigger : Bool
  /-- Halt: `none` is NONE (R27). -/
  halt : Option Cause
  /-- Mem[0x000] to Mem[0xFFF] (R29). -/
  mem : Memory
  /-- MODEL'S OWN (assumption 1): the inputs of the Step about to run or running (R80). -/
  input : StepInput
  /-- MODEL'S OWN (assumption 1): the inputs the host presents on the Steps after that one, first first. -/
  pending : List StepInput
  /-- MODEL'S OWN (assumption 1): how many free inputs were drawn, the argument of the next draw. -/
  draws : Nat
  /-- MODEL'S OWN (assumption 2): the status the last Step returned, which stays valid until the next (R209). -/
  status : Status
  deriving DecidableEq, Repr

/-- SP, signed: -1 when the stack is empty, else the number of the top entry (R20). -/
def State.sp (s : State) : Int := (s.depth.val : Int) - 1

/-- The reset state (R32, R220). Memory lists nothing: an unlisted address reads as its reset contents. The
model's own fields have the values assumptions 1 and 2 name. -/
def State.reset : State where
  v := Vector.replicate 16 0
  i := 0
  pc := 0x200
  stack := Vector.replicate 16 0
  depth := 0
  dt := 0
  st := 0
  displayDirty := false
  audioTrigger := false
  halt := none
  mem := []
  input := { keys := 0, rnd := 0 }
  pending := []
  draws := 0
  status := .ok

/-- Why a step stops with a fault: it never does, so there is no constructor. A fault of the spec is an effect of
the Step, `Halt <- F` (R195), and so a next state; no Step "aborts the hosting process" (assumption 4). -/
inductive Fault where
  deriving DecidableEq, Repr

/-- Why an instruction is refused. -/
inductive Refusal where
  /-- Raised by an arm of `exec` whose instruction has no meaning yet, and by nothing else (safe: the machine
  stops). No arm of this model raises it. -/
  | notModelled (mnemonic : String)
  deriving DecidableEq, Repr

/-- What a step and a meaning answer. -/
abbrev Result := Host.Outcome State Fault Refusal

end Sys2Proof.Machine
end

