-- ==== Sys2Proof/Machine/Memory.lean ====
section
/-! DEFINITION. The byte memory as a canonical list of cells (spec/20_memory.md R40 to R53), the glyph table
(R46) and the geometry of the framebuffer (R44). The range check of R49 is not here: the functions of this file
are total on all addresses, and Machine/Ops.lean checks before it calls them. -/

namespace Sys2Proof.Machine

/-! ## Reset contents -/

/-- FONT, the 80 glyph bytes of the table of R46 (D30, GK3), in digit order, the top row of a glyph first. -/
def font : List Byte :=
  [0xF0, 0x90, 0x90, 0x90, 0xF0,  0x20, 0x60, 0x20, 0x20, 0x70,
   0xF0, 0x10, 0xF0, 0x80, 0xF0,  0xF0, 0x10, 0xF0, 0x10, 0xF0] ++
  [0x90, 0x90, 0xF0, 0x10, 0x10,  0xF0, 0x80, 0xF0, 0x10, 0xF0,
   0xF0, 0x80, 0xF0, 0x90, 0xF0,  0xF0, 0x10, 0x20, 0x40, 0x40] ++
  [0xF0, 0x90, 0xF0, 0x90, 0xF0,  0xF0, 0x90, 0xF0, 0x10, 0xF0,
   0xF0, 0x90, 0xF0, 0x90, 0x90,  0xE0, 0x90, 0xE0, 0x90, 0xE0] ++
  [0xF0, 0x80, 0x80, 0x80, 0xF0,  0xE0, 0x90, 0x90, 0x90, 0xE0,
   0xF0, 0x80, 0xF0, 0x80, 0xF0,  0xF0, 0x80, 0xF0, 0x80, 0x80]

/-- What an address holds at reset: the glyph table at 0x050, zero everywhere else (R32, R220). -/
def resetByte (a : Nat) : Byte :=
  if Config.fontBase ≤ a then font.getD (a - Config.fontBase) 0 else 0

/-! ## Reading and writing one byte -/

namespace Memory

/-- The byte at an address: the listed one, else the reset contents. -/
def read : Memory → Nat → Byte
  | [], a => resetByte a
  | (k, b) :: rest, a => if k = a then b else read rest a

/-- The cells at addresses other than `a`. -/
def erase (m : Memory) (a : Nat) : Memory := m.filter fun c => c.1 != a

/-- The cell `(a, b)` put before the first cell of a higher address. -/
def insert (a : Nat) (b : Byte) : Memory → Memory
  | [] => [(a, b)]
  | (k, c) :: rest => if a < k then (a, b) :: (k, c) :: rest else (k, c) :: insert a b rest

/-- Storing one byte; a byte equal to the reset contents is not listed, so that the form stays canonical. -/
def write (m : Memory) (a : Nat) (b : Byte) : Memory :=
  if b = resetByte a then erase m a else insert a b (erase m a)

/-- Storing consecutive bytes from address `a` upward, the lowest address first (R52). -/
def writeBytes (m : Memory) (a : Nat) : List Byte → Memory
  | [] => m
  | b :: bs => writeBytes (write m a b) (a + 1) bs

/-- The `n` bytes from address `a` upward (R52). -/
def readBytes (m : Memory) (a n : Nat) : List Byte := (List.range n).map fun k => read m (a + k)

/-- The canonical form from address `lo` on: addresses rising, inside the address space, and no cell equal to
what its address reads as when it is not listed. -/
def wfFrom (lo : Nat) : Memory → Bool
  | [] => true
  | (k, b) :: rest => decide (lo ≤ k) && decide (k < Config.memSize) && b != resetByte k && wfFrom (k + 1) rest

/-- The canonical form of a memory: equal memories are equal lists. -/
def wf (m : Memory) : Bool := wfFrom 0 m

end Memory

/-! ## The framebuffer (R44) -/

/-- Whether an address lies in the framebuffer, 0x0A0 to 0x19F (R41, R164). -/
def inFramebuffer (a : Nat) : Bool :=
  decide (Config.fbBase ≤ a) && decide (a < Config.fbBase + Config.fbSize)

/-- `addr(x, y) = 0x0A0 + y*8 + x/8` (R44). -/
def pixelAddr (px py : Nat) : Nat := Config.fbBase + py * 8 + px / 8

/-- `bit(x, y) = 7 - (x mod 8)` (R44). -/
def pixelBit (px : Nat) : Nat := 7 - px % 8

/-- `pixel(x, y) = Mem[addr(x, y)][bit(x, y)]`, true when lit (R44). -/
def Memory.pixel (m : Memory) (px py : Nat) : Bool := (m.read (pixelAddr px py)).getLsbD (pixelBit px)

end Sys2Proof.Machine
end

