-- ==== Sys2Proof/Machine/Operands.lean ====
section
/-! DEFINITION. Reading and writing the operands of an instruction: general registers, the key an instruction
names, the digits and the glyph address a register's value stands for. Register and immediate are the only operand
forms; memory is reached through I alone (spec/30_encoding.md R63). -/

namespace Sys2Proof.Machine

/-- `V[x]` (R8). -/
def State.getV (s : State) (x : Reg) : Byte := s.v[x]

/-- `V[x] <- b` (R8); VF is a register like any other here (R11). -/
def State.setV (s : State) (x : Reg) (b : Byte) : State := { s with v := s.v.set x.val b x.isLt }

/-- `V[k], V[k+1], ... <- bytes`, ascending (R145). Numbers above 15 name no register and take nothing. -/
def State.setVs (s : State) (k : Nat) : List Byte → State
  | [] => s
  | b :: bs => (if h : k < 16 then s.setV ⟨k, h⟩ b else s).setVs (k + 1) bs

/-- `V[0], ..., V[x]`, the registers a dump stores (R144). -/
def State.getVs (s : State) (x : Reg) : List Byte := s.v.toList.take (x.val + 1)

/-- `zext_16(nnn)` (R63). -/
def zext12 (nnn : Addr12) : Word := nnn.zeroExtend 16

/-- `zext_16(b)` (R8). -/
def zext8 (b : Byte) : Word := b.zeroExtend 16

/-- Whether the key an index register selects is down: key `V[x][3:0]`, "the low 4 bits of Vx" (R170, R176). -/
def State.keyDown (s : State) (x : Reg) : Bool := s.input.keys.getLsbD ((s.getV x).extractLsb' 0 4).toNat

/-- "the least k in 0..15 with keys[k] == 1", none when no key is down (R172). -/
def lowestKey (keys : BitVec 16) : Option Nat := (List.range 16).find? fun k => keys.getLsbD k

/-- The three decimal digits of a byte, hundreds first (R143). -/
def bcdDigits (b : Byte) : List Byte :=
  [BitVec.ofNat 8 (b.toNat / 100), BitVec.ofNat 8 (b.toNat / 10 % 10), BitVec.ofNat 8 (b.toNat % 10)]

/-- `0x050 + 5 * zext_16(V[x])`: the whole byte, not masked to a digit (R142). -/
def glyphAddr (b : Byte) : Word := BitVec.ofNat 16 Config.fontBase + 5 * zext8 b

end Sys2Proof.Machine
end

