-- ==== Sys2Proof/Machine/Flags.lean ====
section
/-! DEFINITION. The flag values the six flag-writing instructions put in VF (spec/10_state.md R11, R26): carry,
not-borrow, the bit shifted out, collision. Each is 0 or 1; none is an input of any instruction. -/

namespace Sys2Proof.Machine

/-- A flag as the byte VF receives. -/
def flagByte (f : Bool) : Byte := if f then 1 else 0

/-- 8xy4: "1 when a + b > 255, else 0", the carry out of bit 7 of the exact sum (R128). -/
def carryFlag (a b : Byte) : Byte := flagByte (decide (255 < a.toNat + b.toNat))

/-- 8xy5 and 8xy7: NOT borrow, "1 if a >= b else 0", `a` the minuend (R129, R131). -/
def notBorrowFlag (a b : Byte) : Byte := flagByte (decide (b.toNat ≤ a.toNat))

/-- 8xy6: the bit shifted out, old bit 0 (R130). -/
def shrFlag (a : Byte) : Byte := flagByte (a.getLsbD 0)

/-- 8xyE: the bit shifted out, old bit 7 (R132). -/
def shlFlag (a : Byte) : Byte := flagByte (a.getLsbD 7)

/-- Dxyn: 1 "when at least one pixel that was lit before the instruction is dark after it" (R161). -/
def collisionFlag (collided : Bool) : Byte := flagByte collided

/-- "Vx is written with the result, and after it VF is written with the flag": with x = F the flag remains
(R123). -/
def State.setVAndFlag (s : State) (x : Reg) (result flag : Byte) : State :=
  (s.setV x result).setV Reg.vf flag

end Sys2Proof.Machine
end

