-- ==== Sys2Proof/Machine/Ops.lean ====
section
/-! DEFINITION. The shared operations: moving PC, the call stack, checked memory access, drawing, taking an
exception, and the phases of a Step around the instruction (spec/00_scope.md R8, spec/40_step_cycle.md,
spec/60_exceptions.md). -/

namespace Sys2Proof.Machine

namespace State

/-! ## Taking an exception -/

/-- `raise F`: the one way an exception is taken (R195). "Nothing the current instruction would have written is
written", PC keeps the address of the faulting instruction, `Halt <- F`; "nothing is saved anywhere, no mode
changes", there is no vector and no handler. The Step's status follows from Halt (`haltStatus`). The spec gives no
return from it: "there is no return from a fault", the only way out is reset (R196, `hostReset`). -/
def raise (s : State) (c : Cause) : State := { s with halt := some c }

/-! ## The program counter (R13, R14) -/

/-- `pc <- target` (R8). -/
def jump (s : State) (target : Word) : State := { s with pc := target }

/-- `PC <- PC + 2`, modulo 65536 (R8, R17). -/
def advance (s : State) : State := s.jump (s.pc + 2)

/-- `if taken then PC <- PC + 4 else PC <- PC + 2` (R104 to R108). -/
def skipIf (s : State) (taken : Bool) : State := s.jump (if taken then s.pc + 4 else s.pc + 2)

/-! ## The call stack (R19 to R21) -/

/-- `SP <- SP + 1; Stack[SP] <- r`, none when SP = 15 (R102). -/
def push (s : State) (r : Word) : Option State :=
  if h : s.depth.val < 16 then
    some { s with stack := s.stack.set s.depth.val r h, depth := ⟨s.depth.val + 1, by omega⟩ }
  else none

/-- `Stack[SP]` and the state with `SP <- SP - 1`, none when SP = -1. The entry stays in place (R100). -/
def pop (s : State) : Option (Word × State) :=
  match s.depth with
  | ⟨0, _⟩ => none
  | ⟨d + 1, h⟩ => some (s.stack[d]'(by omega), { s with depth := ⟨d, by omega⟩ })

/-! ## Checked memory access (R8, R49, R53) -/

end State

/-- Whether an access of `n` bytes from address `a` stays in the address space. The addresses are integers, never
reduced; an access of no byte is in range wherever it points (R49, R161). -/
def inRange (a n : Nat) : Bool := n == 0 || decide (a + n ≤ Config.memSize)

namespace State

/-- `MemRead(a, 1), MemRead(a + 1, 1), ...`, `n` bytes, none for AddressFault; no read has a side effect (R8,
R52). -/
def load (s : State) (a n : Nat) : Option (List Byte) :=
  if inRange a n then some (s.mem.readBytes a n) else none

/-- `MemWrite(a, 1, b0), MemWrite(a + 1, 1, b1), ...`, none for AddressFault, which is found before anything is
written (R8, R53); DisplayDirty is set when a stored address lies in the framebuffer (R164). -/
def store (s : State) (a : Nat) (bytes : List Byte) : Option State :=
  if inRange a bytes.length then
    some { s with
      mem := s.mem.writeBytes a bytes
      displayDirty := s.displayDirty || (List.range bytes.length).any fun k => inFramebuffer (a + k) }
  else none

end State

/-! ## Drawing (R161 to R163) -/

/-- The screen pixels a sprite row toggles: for each 1 bit, bit 7 the leftmost, column `(x0 + c) mod 64` of screen
row `y` (R161, R162). -/
def spriteRow (x0 y : Nat) (row : Byte) : List (Nat × Nat) :=
  ((List.range 8).filter fun c => row.getLsbD (7 - c)).map fun c => ((x0 + c) % Config.screenWidth, y)

/-- The screen pixels a sprite toggles; its row `r` lands on screen row `(y0 + r) mod 32` (R161). -/
def spritePixels (x0 y0 : Nat) : List Byte → List (Nat × Nat)
  | [] => []
  | row :: rows => spriteRow x0 (y0 % Config.screenHeight) row ++ spritePixels x0 (y0 + 1) rows

/-- `Mem[a][b] <- Mem[a][b] ^ 1` for the bit of one pixel (R161). -/
def Memory.togglePixel (m : Memory) (px py : Nat) : Memory :=
  let a := pixelAddr px py
  m.write a (m.read a ^^^ ((1 : Byte) <<< pixelBit px))

/-- Toggling pixels one after another; the Bool says whether a lit one was met (R161). -/
def Memory.drawPixels (m : Memory) (collided : Bool) : List (Nat × Nat) → Memory × Bool
  | [] => (m, collided)
  | (px, py) :: rest => (m.togglePixel px py).drawPixels (collided || m.pixel px py) rest

namespace State

/-! ## The phases of a Step (R80) -/

/-- Phase 1: "Clear `DisplayDirty` and `AudioTrigger`" (R84). -/
def clearEdges (s : State) : State := { s with displayDirty := false, audioTrigger := false }

/-- Phase 2: "If `DelayTimer > 0`, decrement by 1" (R82). -/
def tickDelay (s : State) : State := { s with dt := if s.dt = 0 then 0 else s.dt - 1 }

/-- Phase 3: "If `SoundTimer > 0`: if it equals exactly 1, set `AudioTrigger` before decrementing; then
decrement" (R83). -/
def tickSound (s : State) : State :=
  { s with
    st := if s.st = 0 then 0 else s.st - 1
    audioTrigger := s.audioTrigger || s.st == 1 }

/-- Phases 1 to 3 of a Step that is not halted: what an instruction finds when it is fetched (R80). -/
def beforeFetch (s : State) : State := s.clearEdges.tickDelay.tickSound

/-- Phase 4: `op <- MemRead(PC, 2)`, big-endian, at any PC, none for AddressFault; PC does not change (R85). -/
def fetch (s : State) : Option Word :=
  match s.load s.pc.toNat 2 with
  | some [hi, lo] => some (wordOfBytes hi lo)
  | _ => none

/-- The unknown opcode: "no-op, PC += 2" (R68). Its status is set by `endStep`. -/
def unknownOpcode (s : State) : State := s.advance

/-- The Halt value as a Step status: OK for NONE, else the cause (R89, R190). -/
def haltStatus (s : State) : Status :=
  match s.halt with
  | none => .ok
  | some .stackOverflow => .stackOverflow
  | some .stackUnderflow => .stackUnderflow
  | some .addressFault => .addressFault

/-- The inputs of the next Step: the first the host has pending, else a free draw; the core keeps nothing of the
old ones (R31, R80; assumption 1). -/
def nextInput (s : State) : State :=
  match s.pending with
  | inp :: rest => { s with input := inp, pending := rest }
  | [] =>
    { s with
      input := { keys := Config.freeKeys s.draws, rnd := Config.freeRnd s.draws }
      draws := s.draws + 1 }

/-- The end of a Step: its status is returned (R89), and the next Step gets its own inputs. -/
def endStep (s : State) (status : Status) : State := { s with status := status }.nextInput

/-! ## Placing an instruction and a program -/

/-- The two bytes of a word stored at PC, high byte first (R50), when a fetch can reach them (R85). -/
def placeWord (s : State) (w : Word) : State :=
  if inRange s.pc.toNat 2 then
    { s with mem := s.mem.writeBytes s.pc.toNat [(bytesOfWord w).1, (bytesOfWord w).2] }
  else s

end State

/-- The numeric code of a status (R190). -/
def Status.code : Status → Nat
  | .ok => 0
  | .unknownOpcode => 1
  | .stackOverflow => 2
  | .stackUnderflow => 3
  | .addressFault => 4

end Sys2Proof.Machine
end

