-- ==== Sys2Proof/Machine/Cycle.lean ====
section
/-! DEFINITION. The Step cycle around an execute phase (spec/40_step_cycle.md R80 to R91). `step` of
Machine/Step.lean is this cycle around `exec`. -/

namespace Sys2Proof.Machine

/-- What is left of a Step once phases 1 to 3 are done and the word at PC is fetched: decode, execute, status
(R80 phases 5 and 6, R89). `execute` is the machine's `exec`. -/
def runWord (execute : Instr → State → Result) (s : State) (op : Word) : Result :=
  match decodeWord op with
  | .unknown _ => .next (s.unknownOpcode.endStep .unknownOpcode)
  | .instr i =>
    match execute i s with
    | .next t => .next (t.endStep t.haltStatus)
    | .fault r => .fault r
    | .refused r => .refused r

/-- One Step (R80). Halted: the edge flags are cleared and the Halt value is the status (R81). Else the timers tick
(R82, R83), the word at PC is fetched, AddressFault when it cannot be (R85), decoded and executed. -/
def cycle (execute : Instr → State → Result) (s : State) : Result :=
  if s.halt.isSome then
    .next (s.clearEdges.endStep s.haltStatus)
  else
    let t := s.beforeFetch
    match t.fetch with
    | none => .next ((t.raise .addressFault).endStep .addressFault)
    | some op => runWord execute t op

end Sys2Proof.Machine
end

