-- ==== Sys2Proof/Machine/Alu.lean ====
section
/-! DEFINITION. Register loads, the ALU family and the random instruction (spec/42_load_alu_random.md R120 to
R134). All are straight-line, touch no memory and raise no fault. -/

namespace Sys2Proof.Machine

/-- 6xkk `LD Vx, kk` (R120). -/
def execLdImm (x : Reg) (kk : Byte) (s : State) : Result := .next (s.setV x kk).advance

/-- 7xkk `ADD Vx, kk` (R121): wraps, VF not written as a flag. -/
def execAddImm (x : Reg) (kk : Byte) (s : State) : Result := .next (s.setV x (s.getV x + kk)).advance

/-- 8xy0 `LD Vx, Vy` (R124). -/
def execLdReg (x y : Reg) (s : State) : Result := .next (s.setV x (s.getV y)).advance

/-- 8xy1 `OR Vx, Vy` (R125): VF untouched (R122, D15). -/
def execOrReg (x y : Reg) (s : State) : Result := .next (s.setV x (s.getV x ||| s.getV y)).advance

/-- 8xy2 `AND Vx, Vy` (R126): VF untouched (R122, D15). -/
def execAndReg (x y : Reg) (s : State) : Result := .next (s.setV x (s.getV x &&& s.getV y)).advance

/-- 8xy3 `XOR Vx, Vy` (R127): VF untouched (R122, D15). -/
def execXorReg (x y : Reg) (s : State) : Result := .next (s.setV x (s.getV x ^^^ s.getV y)).advance

/-- 8xy4 `ADD Vx, Vy` (R128): VF is the carry, written last (R123). -/
def execAddReg (x y : Reg) (s : State) : Result :=
  let a := s.getV x
  let b := s.getV y
  .next (s.setVAndFlag x (a + b) (carryFlag a b)).advance

/-- 8xy5 `SUB Vx, Vy` (R129): VF is NOT borrow of Vx - Vy, written last (R123). -/
def execSubReg (x y : Reg) (s : State) : Result :=
  let a := s.getV x
  let b := s.getV y
  .next (s.setVAndFlag x (a - b) (notBorrowFlag a b)).advance

/-- 8xy6 `SHR Vx` (R130): Vx shifted in place, Vy not used (D17). -/
def execShr (x _y : Reg) (s : State) : Result :=
  let a := s.getV x
  .next (s.setVAndFlag x (a >>> 1) (shrFlag a)).advance

/-- 8xy7 `SUBN Vx, Vy` (R131): VF is NOT borrow of Vy - Vx, written last (R123). -/
def execSubnReg (x y : Reg) (s : State) : Result :=
  let a := s.getV x
  let b := s.getV y
  .next (s.setVAndFlag x (b - a) (notBorrowFlag b a)).advance

/-- 8xyE `SHL Vx` (R132): Vx shifted in place, Vy not used (D17). -/
def execShl (x _y : Reg) (s : State) : Result :=
  let a := s.getV x
  .next (s.setVAndFlag x (a <<< 1) (shlFlag a)).advance

/-- Cxkk `RND Vx, kk` (R133): the random byte is an input of the Step (R208). -/
def execRnd (x : Reg) (kk : Byte) (s : State) : Result := .next (s.setV x (s.input.rnd &&& kk)).advance

end Sys2Proof.Machine
end

