-- ==== Sys2Proof/Machine/Display.lean ====
section
/-! DEFINITION. The display instructions (spec/44_display.md R160 to R166). -/

namespace Sys2Proof.Machine

/-- 00E0 `CLS` (R160): exactly the 256 framebuffer bytes, DisplayDirty unconditionally. -/
def execCls (s : State) : Result :=
  .next { s with
    mem := s.mem.writeBytes Config.fbBase (List.replicate Config.fbSize 0)
    displayDirty := true }.advance

/-- Dxyn `DRW Vx, Vy, n` (R161 to R163): all sprite bytes are read first, every pixel wraps, VF is the collision
flag and is always written, DisplayDirty unconditionally; AddressFault when n > 0 and I + n - 1 > 0xFFF. -/
def execDrw (x y : Reg) (n : Nat) (s : State) : Result :=
  match s.load s.i.toNat n with
  | none => .next (s.raise .addressFault)
  | some rows =>
    let drawn := s.mem.drawPixels false (spritePixels (s.getV x).toNat (s.getV y).toNat rows)
    .next (({ s with mem := drawn.1, displayDirty := true }.setV Reg.vf (collisionFlag drawn.2)).advance)

end Sys2Proof.Machine
end

