-- ==== Sys2Proof/Machine/Flow.lean ====
section
/-! DEFINITION. Control transfer: return, jump, call, jump with offset and the register skips
(spec/41_flow_and_skips.md R100 to R109). -/

namespace Sys2Proof.Machine

/-- 00EE `RET` (R100): StackUnderflow when the stack is empty (R192). -/
def execRet (s : State) : Result :=
  match s.pop with
  | none => .next (s.raise .stackUnderflow)
  | some (target, t) => .next (t.jump target)

/-- 1nnn `JP nnn` (R101). -/
def execJp (nnn : Addr12) (s : State) : Result := .next (s.jump (zext12 nnn))

/-- 2nnn `CALL nnn` (R102): pushes PC + 2; StackOverflow when 16 calls are outstanding (R191). -/
def execCall (nnn : Addr12) (s : State) : Result :=
  match s.push (s.pc + 2) with
  | none => .next (s.raise .stackOverflow)
  | some t => .next (t.jump (zext12 nnn))

/-- Bnnn `JP V0, nnn` (R103): the sum is not masked. -/
def execJpV0 (nnn : Addr12) (s : State) : Result := .next (s.jump (zext12 nnn + zext8 (s.getV 0)))

/-- 3xkk `SE Vx, kk` (R104). -/
def execSeImm (x : Reg) (kk : Byte) (s : State) : Result := .next (s.skipIf (s.getV x == kk))

/-- 4xkk `SNE Vx, kk` (R105). -/
def execSneImm (x : Reg) (kk : Byte) (s : State) : Result := .next (s.skipIf (s.getV x != kk))

/-- 5xy0 `SE Vx, Vy` (R106). -/
def execSeReg (x y : Reg) (s : State) : Result := .next (s.skipIf (s.getV x == s.getV y))

/-- 9xy0 `SNE Vx, Vy` (R107). -/
def execSneReg (x y : Reg) (s : State) : Result := .next (s.skipIf (s.getV x != s.getV y))

end Sys2Proof.Machine
end

