-- ==== Sys2Proof/Machine/Index.lean ====
section
/-! DEFINITION. The index register and the memory instructions (spec/43_index_and_memory.md R140 to R146). All are
straight-line; the addresses of Fx33, Fx55 and Fx65 are the integers I, I + 1, ..., and I is never changed by them
(D22). -/

namespace Sys2Proof.Machine

/-- Annn `LD I, nnn` (R140). -/
def execLdI (nnn : Addr12) (s : State) : Result := .next { s with i := zext12 nnn }.advance

/-- Fx1E `ADD I, Vx` (R141): modulo 65536, VF not written (D19). -/
def execAddI (x : Reg) (s : State) : Result := .next { s with i := s.i + zext8 (s.getV x) }.advance

/-- Fx29 `LD F, Vx` (R142). -/
def execLdF (x : Reg) (s : State) : Result := .next { s with i := glyphAddr (s.getV x) }.advance

/-- Fx33 `LD B, Vx` (R143): hundreds, tens, ones at I, I + 1, I + 2; AddressFault when I + 2 > 0xFFF. -/
def execLdB (x : Reg) (s : State) : Result :=
  match s.store s.i.toNat (bcdDigits (s.getV x)) with
  | none => .next (s.raise .addressFault)
  | some t => .next t.advance

/-- Fx55 `LD [I], Vx` (R144): V0..Vx at I..I+x; AddressFault when I + x > 0xFFF. -/
def execStoreRegs (x : Reg) (s : State) : Result :=
  match s.store s.i.toNat (s.getVs x) with
  | none => .next (s.raise .addressFault)
  | some t => .next t.advance

/-- Fx65 `LD Vx, [I]` (R145): V0..Vx from I..I+x; AddressFault when I + x > 0xFFF. -/
def execLoadRegs (x : Reg) (s : State) : Result :=
  match s.load s.i.toNat (x.val + 1) with
  | none => .next (s.raise .addressFault)
  | some bytes => .next (s.setVs 0 bytes).advance

end Sys2Proof.Machine
end

