-- ==== Sys2Proof/Machine/Keypad.lean ====
section
/-! DEFINITION. The keypad and timer instructions (spec/45_keypad_and_timers.md R170 to R178). The keys are an input
of the Step (R207); the timers have already ticked when the instruction executes (R90). -/

namespace Sys2Proof.Machine

/-- Ex9E `SKP Vx` (R170). -/
def execSkp (x : Reg) (s : State) : Result := .next (s.skipIf (s.keyDown x))

/-- ExA1 `SKNP Vx` (R171). -/
def execSknp (x : Reg) (s : State) : Result := .next (s.skipIf (!s.keyDown x))

/-- Fx0A `LD Vx, K` (R172, R177): with no key down nothing is written and PC stays, so that the next Step fetches
this instruction again; else the lowest key that is down. -/
def execLdVxK (x : Reg) (s : State) : Result :=
  match lowestKey s.input.keys with
  | none => .next s
  | some k => .next (s.setV x (BitVec.ofNat 8 k)).advance

/-- Fx07 `LD Vx, DT` (R173). -/
def execLdVxDt (x : Reg) (s : State) : Result := .next (s.setV x s.dt).advance

/-- Fx15 `LD DT, Vx` (R174). -/
def execLdDtVx (x : Reg) (s : State) : Result := .next { s with dt := s.getV x }.advance

/-- Fx18 `LD ST, Vx` (R175): never a trigger of its own. -/
def execLdStVx (x : Reg) (s : State) : Result := .next { s with st := s.getV x }.advance

end Sys2Proof.Machine
end

