-- ==== Sys2Proof/Machine/Step.lean ====
section
/-! DEFINITION. The machine's only transition, `Step` (spec/40_step_cycle.md R80). Its inputs `keys` and `rnd` are
`State.input`, its status is `State.status` of the next state. -/

namespace Sys2Proof.Machine

/-- One Step: `Step(keys, rnd) -> status` (R80). -/
def step (s : State) : Host.Outcome State Fault Refusal := cycle exec s

/-- HOST INTERFACE. The state with the instruction word whose bits are `w` (of which the opcode table gives
`nbits`, the bits above being zero) stored where the next Step fetches, at PC. Nothing else changes. Where a fetch
cannot reach (PC > 0xFFE, R85) nothing can be placed and the state stays as it is (assumption 5). -/
def State.withFetchWord (s : State) (nbits w : Nat) : State := s.placeWord (BitVec.ofNat 16 (w % 2 ^ nbits))

end Sys2Proof.Machine
end

