-- ==== Sys2Proof/Machine/HostOps.lean ====
section
/-! DEFINITION. What the host may do to the machine besides calling `step`: reset, `LoadProgram`, choosing the
inputs of a Step, and reading the outputs (spec/60_exceptions.md R205 to R212, spec/70_reset_and_hazards.md R220 to
R225). Host operations are atomic and happen between Steps (R56). -/

namespace Sys2Proof.Machine

/-- `LoadProgram(bytes) -> Bool` (R222 to R224): rejected whole when longer than 3584 bytes, else copied to 0x200
upward; the residue beyond it and everything but memory stay. -/
def loadProgram (bytes : List Byte) (s : State) : Bool × State :=
  if Config.progMax < bytes.length then (false, s)
  else (true, { s with mem := s.mem.writeBytes Config.progBase bytes })

/-- `Reset()` at any time: exactly the constructed state (R220). What the model keeps of the host's inputs is not the
machine's and stays (assumption 1). -/
def hostReset (s : State) : State :=
  { State.reset with input := s.input, pending := s.pending, draws := s.draws }

/-- `Step(keys, rnd)` with inputs the host chooses (R80). -/
def stepWith (keys : BitVec 16) (rnd : Byte) (s : State) : Result :=
  step { s with input := { keys := keys, rnd := rnd } }

/-- The three operations of the interface (R212, D1). -/
inductive HostOp where
  | reset
  | load (bytes : List Byte)
  | step (keys : BitVec 16) (rnd : Byte)
  deriving DecidableEq, Repr

/-- The state one host operation leaves (R212). -/
def HostOp.apply : HostOp → State → Result
  | .reset, s => .next (hostReset s)
  | .load bytes, s => .next (loadProgram bytes s).2
  | .step keys rnd, s => stepWith keys rnd s

namespace State

/-- The accessor `Halted()`, "true when `Halt != NONE`" (R209). -/
def halted (s : State) : Bool := s.halt.isSome

/-- The 256 framebuffer bytes the display collaborator reads between Steps (R166, R205). -/
def framebuffer (s : State) : List Byte := s.mem.readBytes Config.fbBase Config.fbSize

end State

end Sys2Proof.Machine
end

