-- ==== Sys2Proof/Safety.lean ====
section
/-! DEFINITION. The terms claims are stated in: the items of the state and frames over them, which instruction a
Step executes, reachable states, safe runs and the invariants of the machine. -/

namespace Sys2Proof.Machine

/-! ## Items and frames -/

/-- An item of the state, memory by the byte and the register files by the entry. -/
inductive Item where
  | v (x : Reg)
  | i
  | pc
  | stack (k : Fin 16)
  | sp
  | dt
  | st
  | displayDirty
  | audioTrigger
  | halt
  | mem (a : Nat)
  | input
  | pending
  | draws
  | status
  deriving DecidableEq, Repr

/-- Whether an item reads the same in two states. -/
def Item.same : Item → State → State → Prop
  | .v x, s, t => t.getV x = s.getV x
  | .i, s, t => t.i = s.i
  | .pc, s, t => t.pc = s.pc
  | .stack k, s, t => t.stack[k] = s.stack[k]
  | .sp, s, t => t.sp = s.sp
  | .dt, s, t => t.dt = s.dt
  | .st, s, t => t.st = s.st
  | .displayDirty, s, t => t.displayDirty = s.displayDirty
  | .audioTrigger, s, t => t.audioTrigger = s.audioTrigger
  | .halt, s, t => t.halt = s.halt
  | .mem a, s, t => t.mem.read a = s.mem.read a
  | .input, s, t => t.input = s.input
  | .pending, s, t => t.pending = s.pending
  | .draws, s, t => t.draws = s.draws
  | .status, s, t => t.status = s.status

/-- The frame: every item not listed reads in `t` as it did in `s`. -/
def ChangesOnly (items : List Item) (s t : State) : Prop := ∀ p : Item, p ∉ items → p.same s t

/-- The memory items of `n` bytes from address `a` upward. -/
def memItems (a n : Nat) : List Item := (List.range n).map fun k => .mem (a + k)

/-- The general registers V0 to Vx. -/
def regItems (x : Reg) : List Item := ((List.finRange 16).filter fun k => decide (k ≤ x)).map .v

/-- The items a Step changes outside its execute phase: the edge flags, the timers, the status and the inputs
(R80 to R84, R89). -/
def stepItems : List Item := [.displayDirty, .audioTrigger, .dt, .st, .status, .input, .pending, .draws]

/-! ## What a Step executes -/

/-- The next Step from `s` reaches the execute phase of instruction `i` (R80). -/
def Executes (s : State) (i : Instr) : Prop :=
  s.halt = none ∧ ∃ op, s.fetch = some op ∧ decodeWord op = .instr i

/-! ## Runs -/

/-- States the machine can be in: reset, with any inputs to come, then host operations in any order (R212). -/
inductive Reachable : State → Prop where
  | reset (input : StepInput) (pending : List StepInput) :
      Reachable { State.reset with input := input, pending := pending }
  | op {s t : State} (o : HostOp) (before : Reachable s) (applied : o.apply s = .next t) : Reachable t

/-- A safe state: no fault has halted the machine (R27). -/
def State.Running (s : State) : Prop := s.halt = none

/-- A safe run: after every host operation of the list the machine is running. -/
def RunsSafely : List HostOp → State → Prop
  | [], s => s.Running
  | o :: os, s => s.Running ∧ ∃ t, o.apply s = .next t ∧ RunsSafely os t

/-! ## Invariants -/

/-- What holds in every reachable state: PC and the stack entries stay in the range of R17, and memory keeps its
canonical form. That -1 <= SP <= 15 (R21) is in the type of `State.depth`. -/
structure State.Inv (s : State) : Prop where
  pc_le : s.pc.toNat ≤ 0x10FE
  stack_le : ∀ k : Fin 16, s.stack[k].toNat ≤ 0x1000
  mem_wf : s.mem.wf = true

end Sys2Proof.Machine
end

