-- ==== Sys2Proof/Certificates/Slice0/Obligations.lean ====
section
/-! DEFINITION. The statements about the machine, for the provers. The tables of the spec that a statement rests on
are written out here again, with natural-number arithmetic, apart from the model's own decoder and meanings. -/

open Sys2Proof Sys2Proof.Machine

namespace Sys2Proof.Spec

/-! ## The opcode map (spec/30_encoding.md R61, R65) -/

/-- Field `x`, bits 11 to 8. -/
def x (w : Word) : Reg := ⟨w.toNat / 256 % 16, Nat.mod_lt _ (by decide)⟩
/-- Field `y`, bits 7 to 4. -/
def y (w : Word) : Reg := ⟨w.toNat / 16 % 16, Nat.mod_lt _ (by decide)⟩
/-- Field `n`, bits 3 to 0. -/
def n (w : Word) : Nat := w.toNat % 16
/-- Field `kk`, bits 7 to 0. -/
def kk (w : Word) : Byte := BitVec.ofNat 8 (w.toNat % 256)
/-- Field `nnn`, bits 11 to 0. -/
def nnn (w : Word) : Addr12 := BitVec.ofNat 12 (w.toNat % 4096)

/-- A row of R65: the mask, the match and the instruction with its operands. -/
structure Row where
  mask : Word
  pattern : Word
  instr : Word → Instr

/-- `op & mask == match` (R65). -/
def Row.selects (r : Row) (w : Word) : Prop := w &&& r.mask = r.pattern

/-- The 34 rows of R65. -/
def rows : List Row :=
  [⟨0xFFFF, 0x00E0, fun _ => .cls⟩, ⟨0xFFFF, 0x00EE, fun _ => .ret⟩,
   ⟨0xF000, 0x1000, fun w => .jp (nnn w)⟩, ⟨0xF000, 0x2000, fun w => .call (nnn w)⟩,
   ⟨0xF000, 0x3000, fun w => .seImm (x w) (kk w)⟩, ⟨0xF000, 0x4000, fun w => .sneImm (x w) (kk w)⟩,
   ⟨0xF00F, 0x5000, fun w => .seReg (x w) (y w)⟩, ⟨0xF000, 0x6000, fun w => .ldImm (x w) (kk w)⟩,
   ⟨0xF000, 0x7000, fun w => .addImm (x w) (kk w)⟩] ++
  [⟨0xF00F, 0x8000, fun w => .ldReg (x w) (y w)⟩, ⟨0xF00F, 0x8001, fun w => .orReg (x w) (y w)⟩,
   ⟨0xF00F, 0x8002, fun w => .andReg (x w) (y w)⟩, ⟨0xF00F, 0x8003, fun w => .xorReg (x w) (y w)⟩,
   ⟨0xF00F, 0x8004, fun w => .addReg (x w) (y w)⟩, ⟨0xF00F, 0x8005, fun w => .subReg (x w) (y w)⟩,
   ⟨0xF00F, 0x8006, fun w => .shr (x w) (y w)⟩, ⟨0xF00F, 0x8007, fun w => .subnReg (x w) (y w)⟩,
   ⟨0xF00F, 0x800E, fun w => .shl (x w) (y w)⟩, ⟨0xF00F, 0x9000, fun w => .sneReg (x w) (y w)⟩] ++
  [⟨0xF000, 0xA000, fun w => .ldI (nnn w)⟩, ⟨0xF000, 0xB000, fun w => .jpV0 (nnn w)⟩,
   ⟨0xF000, 0xC000, fun w => .rnd (x w) (kk w)⟩, ⟨0xF000, 0xD000, fun w => .drw (x w) (y w) (n w)⟩,
   ⟨0xF0FF, 0xE09E, fun w => .skp (x w)⟩, ⟨0xF0FF, 0xE0A1, fun w => .sknp (x w)⟩] ++
  [⟨0xF0FF, 0xF007, fun w => .ldVxDt (x w)⟩, ⟨0xF0FF, 0xF00A, fun w => .ldVxK (x w)⟩,
   ⟨0xF0FF, 0xF015, fun w => .ldDtVx (x w)⟩, ⟨0xF0FF, 0xF018, fun w => .ldStVx (x w)⟩,
   ⟨0xF0FF, 0xF01E, fun w => .addI (x w)⟩, ⟨0xF0FF, 0xF029, fun w => .ldF (x w)⟩,
   ⟨0xF0FF, 0xF033, fun w => .ldB (x w)⟩, ⟨0xF0FF, 0xF055, fun w => .storeRegs (x w)⟩,
   ⟨0xF0FF, 0xF065, fun w => .loadRegs (x w)⟩]

/-- A word that matches no row (R68). -/
def NoRow (w : Word) : Prop := ∀ r ∈ rows, ¬ r.selects w

/-! ## Words (R61, R62), by arithmetic -/

/-- The word of primary opcode `o` with the address `nnn`. -/
def wordNnn (o : Nat) (nnn : Addr12) : Word := BitVec.ofNat 16 (o * 4096 + nnn.toNat)
/-- The word of primary opcode `o` with the register `x` and the byte `kk`. -/
def wordXkk (o : Nat) (x : Reg) (kk : Nat) : Word := BitVec.ofNat 16 (o * 4096 + x.val * 256 + kk)
/-- The word of primary opcode `o` with the registers `x`, `y` and the nibble `n`. -/
def wordXyn (o : Nat) (x y : Reg) (n : Nat) : Word := BitVec.ofNat 16 (o * 4096 + x.val * 256 + y.val * 16 + n)

/-! ## Values -/

/-- A register as a number. -/
def val (s : State) (r : Reg) : Nat := (s.getV r).toNat

/-- The status that names a cause (R190). -/
def statusOf : Cause → Status
  | .stackOverflow => .stackOverflow
  | .stackUnderflow => .stackUnderflow
  | .addressFault => .addressFault

/-- The items a Step changes that the spec does not call state: its status and its inputs (R31, R89). -/
def portItems : List Item := [.status, .input, .pending, .draws]

/-- An address of the framebuffer, 0x0A0 to 0x19F (R41). -/
def InFb (a : Nat) : Prop := 0x0A0 ≤ a ∧ a ≤ 0x19F

/-- The key Ex9E and ExA1 test is down: bit `V[x][3:0]` of the keys (R170, R176). -/
def keyBit (s : State) (r : Reg) : Bool := s.input.keys.getLsbD (val s r % 16)

/-- Pixel (c, r) of the sprite of a Dxyn at `s` (R162): bit `7 - c` of the byte at I + r. -/
def spriteBit (s : State) (r c : Nat) : Bool := (s.mem.read (s.i.toNat + r)).getLsbD (7 - c)

/-- Screen pixel (px, py) is lit (R44): bit `7 - px mod 8` of the byte at 0x0A0 + 8 py + px / 8. -/
def lit (s : State) (px py : Nat) : Bool := (s.mem.read (0x0A0 + py * 8 + px / 8)).getLsbD (7 - px % 8)

/-- Whether a Dxyn at `s` toggles screen pixel (px, py): "Sprite pixel (c, r) lands on screen pixel
((Vx + c) mod 64, (Vy + r) mod 32)" (R162). -/
def toggles (s : State) (x y : Reg) (n px py : Nat) : Bool :=
  (List.range n).any fun r => (List.range 8).any fun c =>
    spriteBit s r c && px == (val s x + c) % 64 && py == (val s y + r) % 32

/-- The memory items a Dxyn at `s` stores to: the bytes of the pixels it toggles (R44, R52). -/
def drawnItems (s : State) (x y : Reg) (n : Nat) : List Item :=
  (List.range n).flatMap fun r => ((List.range 8).filter fun c => spriteBit s r c).map fun c =>
    .mem (0x0A0 + (val s y + r) % 32 * 8 + (val s x + c) % 64 / 8)

/-- The glyph table of R46, a glyph a row. -/
def glyphs : List (List Byte) :=
  [[0xF0, 0x90, 0x90, 0x90, 0xF0], [0x20, 0x60, 0x20, 0x20, 0x70], [0xF0, 0x10, 0xF0, 0x80, 0xF0],
   [0xF0, 0x10, 0xF0, 0x10, 0xF0], [0x90, 0x90, 0xF0, 0x10, 0x10], [0xF0, 0x80, 0xF0, 0x10, 0xF0],
   [0xF0, 0x80, 0xF0, 0x90, 0xF0], [0xF0, 0x10, 0x20, 0x40, 0x40], [0xF0, 0x90, 0xF0, 0x90, 0xF0],
   [0xF0, 0x90, 0xF0, 0x10, 0xF0], [0xF0, 0x90, 0xF0, 0x90, 0x90], [0xE0, 0x90, 0xE0, 0x90, 0xE0],
   [0xF0, 0x80, 0x80, 0x80, 0xF0], [0xE0, 0x90, 0x90, 0x90, 0xE0], [0xF0, 0x80, 0xF0, 0x80, 0xF0],
   [0xF0, 0x80, 0xF0, 0x80, 0x80]]

/-! ## The tables of spec/10_state.md -/

/-- PC after an instruction that raises no fault (R14). -/
def pcAfter (s : State) : Instr → Word
  | .jp nnn | .call nnn => BitVec.ofNat 16 nnn.toNat
  | .ret => s.stack.toList.getD s.sp.toNat 0
  | .jpV0 nnn => BitVec.ofNat 16 (nnn.toNat + val s 0)
  | .seImm x kk => if val s x = kk.toNat then s.pc + 4 else s.pc + 2
  | .sneImm x kk => if val s x = kk.toNat then s.pc + 2 else s.pc + 4
  | .seReg x y => if val s x = val s y then s.pc + 4 else s.pc + 2
  | .sneReg x y => if val s x = val s y then s.pc + 2 else s.pc + 4
  | .skp x => if keyBit s x then s.pc + 4 else s.pc + 2
  | .sknp x => if keyBit s x then s.pc + 2 else s.pc + 4
  | .ldVxK _ => if s.input.keys = 0 then s.pc else s.pc + 2
  | .cls | .ldImm _ _ | .addImm _ _ | .ldReg _ _ | .orReg _ _ | .andReg _ _ | .xorReg _ _ | .addReg _ _
  | .subReg _ _ | .shr _ _ | .subnReg _ _ | .shl _ _ | .ldI _ | .rnd _ _ | .drw _ _ _ | .ldVxDt _ | .ldDtVx _
  | .ldStVx _ | .addI _ | .ldF _ | .ldB _ | .storeRegs _ | .loadRegs _ => s.pc + 2

/-- The general registers an instruction reads (R12, the column "reads"). -/
def reads : Instr → Reg → Prop
  | .seImm x _, r | .sneImm x _, r | .addImm x _, r | .shr x _, r | .shl x _, r | .skp x, r | .sknp x, r
  | .ldDtVx x, r | .ldStVx x, r | .addI x, r | .ldF x, r | .ldB x, r => r = x
  | .seReg x y, r | .sneReg x y, r | .orReg x y, r | .andReg x y, r | .xorReg x y, r | .addReg x y, r
  | .subReg x y, r | .subnReg x y, r | .drw x y _, r => r = x ∨ r = y
  | .ldReg _ y, r => r = y
  | .jpV0 _, r => r = 0
  | .storeRegs x, r => r ≤ x
  | .cls, _ | .ret, _ | .jp _, _ | .call _, _ | .ldImm _ _, _ | .ldI _, _ | .rnd _ _, _ | .ldVxDt _, _
  | .ldVxK _, _ | .loadRegs _, _ => False

/-- The general registers an instruction may write (R12, the column "writes"). -/
def writes : Instr → Reg → Prop
  | .ldImm x _, r | .addImm x _, r | .ldReg x _, r | .orReg x _, r | .andReg x _, r | .xorReg x _, r | .rnd x _, r
  | .ldVxDt x, r | .ldVxK x, r => r = x
  | .addReg x _, r | .subReg x _, r | .subnReg x _, r | .shr x _, r | .shl x _, r => r = x ∨ r = 15
  | .drw _ _ _, r => r = 15
  | .loadRegs x, r => r ≤ x
  | .cls, _ | .ret, _ | .jp _, _ | .call _, _ | .seImm _ _, _ | .sneImm _ _, _ | .seReg _ _, _ | .sneReg _ _, _
  | .ldI _, _ | .jpV0 _, _ | .skp _, _ | .sknp _, _ | .ldDtVx _, _ | .ldStVx _, _ | .addI _, _ | .ldF _, _
  | .ldB _, _ | .storeRegs _, _ => False

/-- The instructions that query the keys: "the `Ex9E/ExA1/Fx0A` instruction family" (R207). -/
def UsesKeys (i : Instr) : Prop := ∃ x, i = .skp x ∨ i = .sknp x ∨ i = .ldVxK x

/-- The instruction that uses the random byte: "used only by Cxkk" (R208). -/
def UsesRnd (i : Instr) : Prop := ∃ x kk, i = .rnd x kk

/-- The instruction, when it does not fault, writes the framebuffer in the sense of R164: 00E0 and Dxyn always,
Fx33 and Fx55 when an address they store to lies in 0x0A0..0x19F. -/
def WritesFb (s : State) : Instr → Prop
  | .cls | .drw _ _ _ => True
  | .ldB _ => ∃ k, k < 3 ∧ InFb (s.i.toNat + k)
  | .storeRegs x => ∃ k, k ≤ x.val ∧ InFb (s.i.toNat + k)
  | .ret | .jp _ | .call _ | .seImm _ _ | .sneImm _ _ | .seReg _ _ | .ldImm _ _ | .addImm _ _ | .ldReg _ _
  | .orReg _ _ | .andReg _ _ | .xorReg _ _ | .addReg _ _ | .subReg _ _ | .shr _ _ | .subnReg _ _ | .shl _ _
  | .sneReg _ _ | .ldI _ | .jpV0 _ | .rnd _ _ | .skp _ | .sknp _ | .ldVxDt _ | .ldVxK _ | .ldDtVx _ | .ldStVx _
  | .addI _ | .ldF _ | .loadRegs _ => False

end Sys2Proof.Spec

open Sys2Proof.Spec

/-! ## Encoding -/

/-- Decoding the word of a well-formed instruction gives it back, with every operand at every value (R61, R62,
R65). -/
def Obligations.DecodeOfEncode : Prop :=
  ∀ i : Instr, i.wellFormed = true → decodeWord (encode i) = .instr i

/-- A word that decodes to an instruction is that instruction's word, and the instruction is well formed: each word
has one meaning (R65, R67). -/
def Obligations.EncodeOfDecode : Prop :=
  ∀ (w : Word) (i : Instr), decodeWord w = .instr i → i.wellFormed = true ∧ encode i = w

/-- The opcode map of R65: a row that selects a word gives its instruction with the operands of R61, and no two rows
select one word. -/
def Obligations.OpcodeMapSelectsOneInstruction : Prop :=
  (∀ r ∈ rows, ∀ w : Word, r.selects w → decodeWord w = .instr (r.instr w)) ∧
  rows.Pairwise fun r r' => ∀ w : Word, ¬ (r.selects w ∧ r'.selects w)

/-- A word is an unknown opcode exactly when no row of R65 selects it (R68, R69). -/
def Obligations.UnknownWordsMatchNoRow : Prop :=
  ∀ w : Word, decodeWord w = .unknown w ↔ NoRow w

/-- A few words of the decode table of spec/95_test_vectors.md 2.1, written out. -/
def Obligations.SampleWordsDecode : Prop :=
  decodeWord 0x00E0 = .instr .cls ∧ decodeWord 0x1FFF = .instr (.jp 0xFFF) ∧
  decodeWord 0x5120 = .instr (.seReg 1 2) ∧ decodeWord 0x8127 = .instr (.subnReg 1 2) ∧
  decodeWord 0x8128 = .unknown 0x8128 ∧ decodeWord 0xD12F = .instr (.drw 1 2 15) ∧
  decodeWord 0xE0A1 = .instr (.sknp 0) ∧ decodeWord 0xFF65 = .instr (.loadRegs 15) ∧
  decodeWord 0x01E0 = .unknown 0x01E0

/-! ## The Step -/

/-- When the two bytes at PC decode to an instruction, the Step runs it on the state that phases 1 to 3 leave (edge
flags cleared, timers ticked, AudioTrigger when ST was 1), and adds only the status and the next inputs (R80). -/
def Obligations.StepRunsTheDecodedInstruction : Prop :=
  ∀ (s t : State) (i : Instr), s.halt = none → s.pc.toNat ≤ 0xFFE →
    decodeWord (BitVec.ofNat 16 ((s.mem.read s.pc.toNat).toNat * 256 + (s.mem.read (s.pc.toNat + 1)).toNat)) = .instr i →
    exec i { s with
      displayDirty := false
      audioTrigger := decide (s.st.toNat = 1)
      dt := BitVec.ofNat 8 (s.dt.toNat - 1)
      st := BitVec.ofNat 8 (s.st.toNat - 1) } = .next t →
    ∃ u, step s = .next u ∧ ChangesOnly portItems t u ∧ (t.halt = none → u.status = .ok) ∧
      ∀ c, t.halt = some c → u.status = statusOf c

/-- The unknown opcode (R68): PC + 2, the status UNKNOWN_OPCODE, Halt stays NONE, and the execute phase changes
nothing else; the timers have ticked as always. -/
def Obligations.UnknownOpcodeIsANoOp : Prop :=
  ∀ (s : State) (w : Word), s.halt = none → s.fetch = some w → NoRow w →
    ∃ t, step s = .next t ∧ t.pc = s.pc + 2 ∧ t.status = .unknownOpcode ∧ t.halt = none ∧
      t.displayDirty = false ∧ (t.audioTrigger = true ↔ s.st.toNat = 1) ∧
      t.dt.toNat = s.dt.toNat - 1 ∧ t.st.toNat = s.st.toNat - 1 ∧ ChangesOnly (.pc :: stepItems) s t

/-- A Step of a halted machine clears the edge flags and does nothing else; its status is the value of Halt
(R81). -/
def Obligations.HaltedStepDoesNothing : Prop :=
  ∀ (s : State) (c : Cause), s.halt = some c →
    ∃ t, step s = .next t ∧ t.displayDirty = false ∧ t.audioTrigger = false ∧ t.status = statusOf c ∧
      ChangesOnly (.displayDirty :: .audioTrigger :: portItems) s t

/-- The fetch (R85): big-endian at any PC up to 0xFFE, even or odd; above it the Step raises AddressFault with PC
kept, no instruction executed, phases 1 to 3 in effect. -/
def Obligations.FetchIsBigEndianOrFaults : Prop :=
  ∀ s : State,
    (s.pc.toNat ≤ 0xFFE → ∃ w, s.fetch = some w ∧
      w.toNat = (s.mem.read s.pc.toNat).toNat * 256 + (s.mem.read (s.pc.toNat + 1)).toNat) ∧
    (0xFFE < s.pc.toNat → s.halt = none → ∃ t, step s = .next t ∧ t.halt = some .addressFault ∧
      t.status = .addressFault ∧ t.displayDirty = false ∧ (t.audioTrigger = true ↔ s.st.toNat = 1) ∧
      t.dt.toNat = s.dt.toNat - 1 ∧ t.st.toNat = s.st.toNat - 1 ∧ ChangesOnly (.halt :: stepItems) s t)

/-- Every Step gives a next state of the model, neither a fault nor a refusal. THE MODEL'S CHOICE (assumption 4,
DEDUCED): that a fault of the spec, which sets Halt and ends the Step with a status (R195), is a next state is how the
model reads the spec, not a sentence of R80 or R195. -/
def Obligations.EveryStepGivesANextState : Prop :=
  ∀ s : State, ∃ t, step s = .next t

/-- The delay timer (R82): every Step that is not halted takes one from it while non-zero, whatever the instruction,
unless that instruction is Fx15, which writes it after the tick; and Fx07 reads it after the tick (R90). -/
def Obligations.DelayTimerTicksEveryStep : Prop :=
  ∀ s t : State, s.halt = none → step s = .next t →
    ((∀ x, ¬ Executes s (.ldDtVx x)) → t.dt.toNat = s.dt.toNat - 1) ∧
    (∀ x, Executes s (.ldDtVx x) → t.dt = s.getV x) ∧
    (∀ x, Executes s (.ldVxDt x) → val t x = s.dt.toNat - 1)

/-- The sound timer (R83): AudioTrigger is set exactly on the Step that finds ST = 1 and is not halted; ST is
decremented on every Step that is not halted, then written by Fx18. -/
def Obligations.AudioTriggerMarksTheEndOfSound : Prop :=
  ∀ s t : State, step s = .next t →
    (t.audioTrigger = true ↔ s.halt = none ∧ s.st.toNat = 1) ∧
    (s.halt = none → (∀ x, ¬ Executes s (.ldStVx x)) → t.st.toNat = s.st.toNat - 1) ∧
    (∀ x, Executes s (.ldStVx x) → t.st = s.getV x)

/-- DisplayDirty (R164): set by a Step exactly when it executed without fault an instruction that writes the
framebuffer, and always set by a Step that changed a framebuffer byte. -/
def Obligations.DisplayDirtyMarksFramebufferWrites : Prop :=
  ∀ s t : State, step s = .next t →
    (t.displayDirty = true ↔ ∃ i, Executes s i ∧ WritesFb s i ∧ t.halt = none) ∧
    ∀ a, InFb a → t.mem.read a ≠ s.mem.read a → t.displayDirty = true

/-- The status of a Step (R89), with its numeric codes (R190); and no Step reads the status of an earlier one ("it is
not remembered except through Halt"). -/
def Obligations.StatusTellsTheOutcome : Prop :=
  ∀ s t : State, step s = .next t →
    (t.status.code = 0 ↔ (∃ i, Executes s i) ∧ t.halt = none) ∧
    (t.status.code = 1 ↔ s.halt = none ∧ ∃ w, s.fetch = some w ∧ NoRow w) ∧
    (t.status.code = 2 ↔ t.halt = some .stackOverflow) ∧
    (t.status.code = 3 ↔ t.halt = some .stackUnderflow) ∧
    (t.status.code = 4 ↔ t.halt = some .addressFault) ∧
    ∀ r, step { s with status := r } = .next t

/-! ## Faults -/

/-- When a machine that runs is halted by a Step, by cause (R190): the call with a full stack, the return with an
empty one, and the four places of the address fault, and nowhere else (R193). -/
def Obligations.FaultsHaveExactlyTheirCauses : Prop :=
  ∀ s t : State, s.halt = none → step s = .next t →
    (t.halt = some .stackOverflow ↔ s.sp = 15 ∧ ∃ nnn, Executes s (.call nnn)) ∧
    (t.halt = some .stackUnderflow ↔ s.sp = -1 ∧ Executes s .ret) ∧
    (t.halt = some .addressFault ↔
      0xFFE < s.pc.toNat ∨
      (∃ x, Executes s (.ldB x) ∧ 0xFFF < s.i.toNat + 2) ∨
      (∃ x : Reg, (Executes s (.storeRegs x) ∨ Executes s (.loadRegs x)) ∧ 0xFFF < s.i.toNat + x.val) ∨
      ∃ x y n, Executes s (.drw x y n) ∧ 0 < n ∧ 0xFFF < s.i.toNat + n - 1)

/-- Faults are precise (R195): a Step that raises one leaves Halt and the status at the cause, keeps PC, every
register, the stack, I and every byte of memory, with DisplayDirty clear; the effects of phases 1 to 3 stay. -/
def Obligations.FaultsArePrecise : Prop :=
  ∀ (s t : State) (c : Cause), s.halt = none → step s = .next t → t.halt = some c →
    t.status = statusOf c ∧ t.displayDirty = false ∧ (t.audioTrigger = true ↔ s.st.toNat = 1) ∧
    t.dt.toNat = s.dt.toNat - 1 ∧ t.st.toNat = s.st.toNat - 1 ∧ ChangesOnly (.halt :: stepItems) s t

/-- Halt is sticky (R27, R196): over any number of Steps, and over a LoadProgram, a halted machine keeps its first
cause, its PC, registers, stack, timers, and over Steps its memory; reset alone leaves the halted state. -/
def Obligations.HaltIsStickyUntilReset : Prop :=
  ∀ (k : Nat) (s : State) (c : Cause), s.halt = some c →
    (∃ t, core.run k s = .next t ∧ t.halt = some c ∧
      ChangesOnly (.displayDirty :: .audioTrigger :: portItems) s t) ∧
    (∀ bytes, (loadProgram bytes s).2.halt = some c) ∧ (hostReset s).halt = none

/-! ## Whole-machine rules -/

/-- PC after a Step, for every instruction (R14): the table, plus an unknown opcode's PC + 2 and PC unchanged by a
fault and while halted. -/
def Obligations.ProgramCounterTable : Prop :=
  ∀ s t : State, step s = .next t →
    (∀ i, Executes s i → t.halt = none → t.pc = pcAfter s i) ∧
    (∀ w, s.halt = none → s.fetch = some w → NoRow w → t.pc = s.pc + 2) ∧
    (t.halt ≠ none → t.pc = s.pc)

/-- Which Steps change which state (R12, R18 to R24, R52): a general register only by an instruction that writes it,
I only by Annn, Fx1E, Fx29, a stack entry only by 2nnn, SP only by 2nnn and 00EE, memory only by 00E0, Dxyn, Fx33 and
Fx55. -/
def Obligations.OnlyTheNamedInstructionsChangeState : Prop :=
  ∀ s t : State, step s = .next t →
    (∀ r, t.getV r ≠ s.getV r → ∃ i, Executes s i ∧ writes i r) ∧
    (t.i ≠ s.i → ∃ i, Executes s i ∧ ((∃ nnn, i = .ldI nnn) ∨ (∃ x, i = .addI x) ∨ ∃ x, i = .ldF x)) ∧
    (∀ k : Fin 16, t.stack[k] ≠ s.stack[k] → ∃ nnn, Executes s (.call nnn)) ∧
    (t.sp ≠ s.sp → Executes s .ret ∨ ∃ nnn, Executes s (.call nnn)) ∧
    (∀ a, t.mem.read a ≠ s.mem.read a → ∃ i, Executes s i ∧
      (i = .cls ∨ (∃ x y n, i = .drw x y n) ∨ (∃ x, i = .ldB x) ∨ ∃ x, i = .storeRegs x))

/-- An instruction does not depend on a register it does not read (R12, an inference the spec marks as derived):
running it with another value there gives a state that differs from the first at most in that register, and not even
there when the instruction writes it and does not fault. Fx0A is left out of that last clause, since it writes only when
a key is down; WaitForKeyTakesTheLowestKey says what it writes. -/
def Obligations.UnreadRegistersDoNotMatter : Prop :=
  ∀ (i : Instr) (s : State) (r : Reg) (b : Byte), ¬ reads i r →
    ∃ t t', exec i s = .next t ∧ exec i (s.setV r b) = .next t' ∧ ChangesOnly [.v r] t t' ∧
      (writes i r → t.halt = none → (∀ x, i ≠ .ldVxK x) → t'.getV r = t.getV r)

/-- The keys of a Step matter only to Ex9E, ExA1 and Fx0A (R207), its random byte only to Cxkk (R208): a Step that
executes none of them gives the same next state whatever the input is, so the core keeps no copy either (R31). -/
def Obligations.InputsMatterOnlyWhereUsed : Prop :=
  ∀ s : State,
    (∀ keys, (∀ i, Executes s i → ¬ UsesKeys i) → step { s with input := ⟨keys, s.input.rnd⟩ } = step s) ∧
    (∀ rnd, (∀ i, Executes s i → ¬ UsesRnd i) → step { s with input := ⟨s.input.keys, rnd⟩ } = step s)

/-- The inputs a Step leaves for the next: the host's next pending ones, in order. THE MODEL'S CHOICE of where inputs
are held (assumption 1), not a rule of the spec. -/
def Obligations.PendingInputsAreUsedInOrder : Prop :=
  ∀ (s t : State) (input : StepInput) (rest : List StepInput), s.pending = input :: rest → step s = .next t →
    t.input = input ∧ t.pending = rest ∧ t.draws = s.draws

/-! ## Invariants -/

/-- Every Step keeps the invariant: PC at most 0x10FE, stack entries at most 0x1000 (R17), memory canonical. -/
def Obligations.EveryStepKeepsTheInvariant : Prop :=
  ∀ s t : State, s.Inv → step s = .next t → t.Inv

/-- The reset state meets the invariant. -/
def Obligations.ResetMeetsTheInvariant : Prop := State.reset.Inv

/-- In every state reachable from reset, whatever programs are loaded and whatever the inputs, PC is at most 0x10FE
(R17), -1 <= SP <= 15 (R21) and memory is canonical. -/
def Obligations.ReachableStatesStayInRange : Prop :=
  ∀ s : State, Reachable s → s.pc.toNat ≤ 0x10FE ∧ -1 ≤ s.sp ∧ s.sp ≤ 15 ∧ s.mem.wf = true

/-! ## Control transfer -/

/-- RET (R100), 00EE: pops PC whole, the entry staying in place; StackUnderflow with nothing changed but Halt when the
stack is empty. -/
def Obligations.ReturnPopsTheStack : Prop :=
  decodeWord 0x00EE = .instr .ret ∧ ∀ s : State,
    (s.sp = -1 → ∃ t, exec .ret s = .next t ∧ t.halt = some .stackUnderflow ∧ ChangesOnly [.halt] s t) ∧
    (∀ k : Fin 16, s.sp = k.val → ∃ t, exec .ret s = .next t ∧ t.pc = s.stack[k] ∧ t.sp = s.sp - 1 ∧
      ChangesOnly [.pc, .sp] s t)

/-- CALL (R102), 2nnn: pushes PC + 2 at the incremented SP and jumps; StackOverflow with nothing changed but Halt when
SP = 15. -/
def Obligations.CallPushesTheReturnAddress : Prop :=
  ∀ (s : State) (nnn : Addr12), decodeWord (wordNnn 2 nnn) = .instr (.call nnn) ∧
    (s.sp = 15 → ∃ t, exec (.call nnn) s = .next t ∧ t.halt = some .stackOverflow ∧ ChangesOnly [.halt] s t) ∧
    (∀ k : Fin 16, s.sp + 1 = k.val → ∃ t, exec (.call nnn) s = .next t ∧ t.pc.toNat = nnn.toNat ∧
      t.sp = s.sp + 1 ∧ t.stack[k] = s.pc + 2 ∧ ChangesOnly [.pc, .sp, .stack k] s t)

/-- A return after a call comes back to the instruction after the call, whatever the subroutine changed besides the
stack and SP, and SP is as before the call (R100, R102, spec/95_test_vectors.md S5). -/
def Obligations.ReturnAfterCallComesBack : Prop :=
  ∀ (s t u : State) (nnn : Addr12), s.sp < 15 → exec (.call nnn) s = .next t → u.stack = t.stack → u.sp = t.sp →
    ∃ w, exec .ret u = .next w ∧ w.pc = s.pc + 2 ∧ w.sp = s.sp ∧ ChangesOnly [.pc, .sp] u w

/-- JP nnn (R101), 1nnn, and JP V0, nnn (R103), Bnnn: the target is the exact number, not masked, odd or even; a
target above 0xFFE cannot be fetched from. -/
def Obligations.JumpsSetTheExactTarget : Prop :=
  ∀ (s : State) (nnn : Addr12),
    decodeWord (wordNnn 1 nnn) = .instr (.jp nnn) ∧ decodeWord (wordNnn 0xB nnn) = .instr (.jpV0 nnn) ∧
    (∃ t, exec (.jp nnn) s = .next t ∧ t.pc.toNat = nnn.toNat ∧ ChangesOnly [.pc] s t ∧
      (t.fetch = none ↔ nnn.toNat = 0xFFF)) ∧
    (∃ t, exec (.jpV0 nnn) s = .next t ∧ t.pc.toNat = nnn.toNat + val s 0 ∧ ChangesOnly [.pc] s t ∧
      (t.fetch = none ↔ 0xFFE < nnn.toNat + val s 0))

/-- The register skips (R104 to R107), 3xkk, 4xkk, 5xy0, 9xy0; 5xyn and 9xyn with another n are unknown. -/
def Obligations.RegisterSkips : Prop :=
  ∀ (s : State) (x y : Reg) (kk : Byte),
    decodeWord (wordXkk 3 x kk.toNat) = .instr (.seImm x kk) ∧
    decodeWord (wordXkk 4 x kk.toNat) = .instr (.sneImm x kk) ∧
    decodeWord (wordXyn 5 x y 0) = .instr (.seReg x y) ∧ decodeWord (wordXyn 9 x y 0) = .instr (.sneReg x y) ∧
    (∀ n, 0 < n → n < 16 → decodeWord (wordXyn 5 x y n) = .unknown (wordXyn 5 x y n) ∧
      decodeWord (wordXyn 9 x y n) = .unknown (wordXyn 9 x y n)) ∧
    (∃ t, exec (.seImm x kk) s = .next t ∧ ChangesOnly [.pc] s t ∧
      t.pc = if val s x = kk.toNat then s.pc + 4 else s.pc + 2) ∧
    (∃ t, exec (.sneImm x kk) s = .next t ∧ ChangesOnly [.pc] s t ∧
      t.pc = if val s x = kk.toNat then s.pc + 2 else s.pc + 4) ∧
    (∃ t, exec (.seReg x y) s = .next t ∧ ChangesOnly [.pc] s t ∧
      t.pc = if val s x = val s y then s.pc + 4 else s.pc + 2) ∧
    (∃ t, exec (.sneReg x y) s = .next t ∧ ChangesOnly [.pc] s t ∧
      t.pc = if val s x = val s y then s.pc + 2 else s.pc + 4)

/-- The key skips (R170, R171, R176), Ex9E and ExA1: the key tested is the one numbered by the low four bits of Vx. -/
def Obligations.KeySkips : Prop :=
  ∀ (s : State) (x : Reg),
    decodeWord (wordXkk 0xE x 0x9E) = .instr (.skp x) ∧ decodeWord (wordXkk 0xE x 0xA1) = .instr (.sknp x) ∧
    (∃ t, exec (.skp x) s = .next t ∧ ChangesOnly [.pc] s t ∧
      t.pc = if keyBit s x then s.pc + 4 else s.pc + 2) ∧
    (∃ t, exec (.sknp x) s = .next t ∧ ChangesOnly [.pc] s t ∧
      t.pc = if keyBit s x then s.pc + 2 else s.pc + 4)

/-- A jump to its own address loops for ever with the timers ticking (R101, R213): after k Steps PC is the same and
the machine runs, each timer is k lower or zero, and AudioTrigger is set on the Step that took ST to zero (R90). -/
def Obligations.JumpToSelfLoopsWhileTimersTick : Prop :=
  ∀ (k : Nat) (s : State) (nnn : Addr12), Executes s (.jp nnn) → nnn.toNat = s.pc.toNat →
    ∃ t, core.run k s = .next t ∧ t.pc = s.pc ∧ t.halt = none ∧ t.dt.toNat = s.dt.toNat - k ∧
      t.st.toNat = s.st.toNat - k ∧ (0 < k → (t.audioTrigger = true ↔ s.st.toNat = k)) ∧
      ChangesOnly stepItems s t

/-! ## Loads, arithmetic, random -/

/-- LD Vx, kk (R120), 6xkk, and ADD Vx, kk (R121), 7xkk: the sum wraps and writes no flag. -/
def Obligations.ImmediateLoadAndAdd : Prop :=
  ∀ (s : State) (x : Reg) (kk : Byte),
    decodeWord (wordXkk 6 x kk.toNat) = .instr (.ldImm x kk) ∧
    decodeWord (wordXkk 7 x kk.toNat) = .instr (.addImm x kk) ∧
    (∃ t, exec (.ldImm x kk) s = .next t ∧ t.getV x = kk ∧ t.pc = s.pc + 2 ∧ ChangesOnly [.v x, .pc] s t) ∧
    (∃ t, exec (.addImm x kk) s = .next t ∧ val t x = (val s x + kk.toNat) % 256 ∧ t.pc = s.pc + 2 ∧
      ChangesOnly [.v x, .pc] s t)

/-- 8xy0 to 8xy3 (R124 to R127): assign, or, and, xor; VF is not written unless it is Vx. -/
def Obligations.AssignAndLogic : Prop :=
  ∀ (s : State) (x y : Reg),
    decodeWord (wordXyn 8 x y 0) = .instr (.ldReg x y) ∧ decodeWord (wordXyn 8 x y 1) = .instr (.orReg x y) ∧
    decodeWord (wordXyn 8 x y 2) = .instr (.andReg x y) ∧ decodeWord (wordXyn 8 x y 3) = .instr (.xorReg x y) ∧
    (∃ t, exec (.ldReg x y) s = .next t ∧ t.getV x = s.getV y ∧ t.pc = s.pc + 2 ∧ ChangesOnly [.v x, .pc] s t) ∧
    (∃ t, exec (.orReg x y) s = .next t ∧ t.pc = s.pc + 2 ∧ ChangesOnly [.v x, .pc] s t ∧
      ∀ k, (t.getV x).getLsbD k = ((s.getV x).getLsbD k || (s.getV y).getLsbD k)) ∧
    (∃ t, exec (.andReg x y) s = .next t ∧ t.pc = s.pc + 2 ∧ ChangesOnly [.v x, .pc] s t ∧
      ∀ k, (t.getV x).getLsbD k = ((s.getV x).getLsbD k && (s.getV y).getLsbD k)) ∧
    (∃ t, exec (.xorReg x y) s = .next t ∧ t.pc = s.pc + 2 ∧ ChangesOnly [.v x, .pc] s t ∧
      ∀ k, (t.getV x).getLsbD k = ((s.getV x).getLsbD k ^^ (s.getV y).getLsbD k))

/-- ADD Vx, Vy (R128), 8xy4: the sum modulo 256, VF the carry; with x = F the carry remains. -/
def Obligations.AddSetsTheCarry : Prop :=
  ∀ (s : State) (x y : Reg), decodeWord (wordXyn 8 x y 4) = .instr (.addReg x y) ∧
    ∃ t, exec (.addReg x y) s = .next t ∧ t.pc = s.pc + 2 ∧ ChangesOnly [.v x, .v 15, .pc] s t ∧
      (x ≠ 15 → val t x = (val s x + val s y) % 256) ∧
      val t 15 = if 255 < val s x + val s y then 1 else 0

/-- SUB Vx, Vy (R129), 8xy5, and SUBN Vx, Vy (R131), 8xy7: the difference modulo 256, VF 1 exactly when there is no borrow,
equality included; with x = F the flag remains. -/
def Obligations.SubtractionsSetNotBorrow : Prop :=
  ∀ (s : State) (x y : Reg),
    decodeWord (wordXyn 8 x y 5) = .instr (.subReg x y) ∧ decodeWord (wordXyn 8 x y 7) = .instr (.subnReg x y) ∧
    (∃ t, exec (.subReg x y) s = .next t ∧ t.pc = s.pc + 2 ∧ ChangesOnly [.v x, .v 15, .pc] s t ∧
      (x ≠ 15 → val t x = (256 + val s x - val s y) % 256) ∧
      val t 15 = if val s x < val s y then 0 else 1) ∧
    (∃ t, exec (.subnReg x y) s = .next t ∧ t.pc = s.pc + 2 ∧ ChangesOnly [.v x, .v 15, .pc] s t ∧
      (x ≠ 15 → val t x = (256 + val s y - val s x) % 256) ∧
      val t 15 = if val s y < val s x then 0 else 1)

/-- SHR Vx (R130), 8xy6, and SHL Vx (R132), 8xyE: Vx shifted in place by one whatever `y` is, VF the bit shifted out; with x = F
the flag remains. -/
def Obligations.ShiftsSetTheBitShiftedOut : Prop :=
  ∀ (s : State) (x y : Reg),
    decodeWord (wordXyn 8 x y 6) = .instr (.shr x y) ∧ decodeWord (wordXyn 8 x y 0xE) = .instr (.shl x y) ∧
    (∃ t, exec (.shr x y) s = .next t ∧ t.pc = s.pc + 2 ∧ ChangesOnly [.v x, .v 15, .pc] s t ∧
      (x ≠ 15 → val t x = val s x / 2) ∧ val t 15 = val s x % 2) ∧
    (∃ t, exec (.shl x y) s = .next t ∧ t.pc = s.pc + 2 ∧ ChangesOnly [.v x, .v 15, .pc] s t ∧
      (x ≠ 15 → val t x = val s x * 2 % 256) ∧ val t 15 = val s x / 128)

/-- RND Vx, kk (R133), Cxkk, for every value of the Step's random byte. -/
def Obligations.RandomIsTheInputByteMasked : Prop :=
  ∀ (s : State) (x : Reg) (kk : Byte), decodeWord (wordXkk 0xC x kk.toNat) = .instr (.rnd x kk) ∧
    ∃ t, exec (.rnd x kk) s = .next t ∧ t.pc = s.pc + 2 ∧ ChangesOnly [.v x, .pc] s t ∧
      ∀ k, (t.getV x).getLsbD k = (s.input.rnd.getLsbD k && kk.getLsbD k)

/-! ## Index and memory -/

/-- LD I, nnn (R140), Annn, ADD I, Vx (R141), Fx1E, LD F, Vx (R142), Fx29: VF is not written; the sum wraps at 65536 only; the glyph
address uses the whole byte. -/
def Obligations.IndexRegisterWrites : Prop :=
  ∀ (s : State) (x : Reg) (nnn : Addr12),
    decodeWord (wordNnn 0xA nnn) = .instr (.ldI nnn) ∧ decodeWord (wordXkk 0xF x 0x1E) = .instr (.addI x) ∧
    decodeWord (wordXkk 0xF x 0x29) = .instr (.ldF x) ∧
    (∃ t, exec (.ldI nnn) s = .next t ∧ t.i.toNat = nnn.toNat ∧ t.pc = s.pc + 2 ∧ ChangesOnly [.i, .pc] s t) ∧
    (∃ t, exec (.addI x) s = .next t ∧ t.i.toNat = (s.i.toNat + val s x) % 65536 ∧ t.pc = s.pc + 2 ∧
      ChangesOnly [.i, .pc] s t) ∧
    (∃ t, exec (.ldF x) s = .next t ∧ t.i.toNat = 0x050 + 5 * val s x ∧ t.pc = s.pc + 2 ∧
      ChangesOnly [.i, .pc] s t)

/-- LD B, Vx (R143), Fx33: hundreds, tens, ones at I, I + 1, I + 2, DisplayDirty when one of them is in the framebuffer;
AddressFault with nothing stored when I > 0xFFD. -/
def Obligations.BcdStoresThreeDigits : Prop :=
  ∀ (s : State) (x : Reg), decodeWord (wordXkk 0xF x 0x33) = .instr (.ldB x) ∧
    (s.i.toNat ≤ 0xFFD → ∃ t, exec (.ldB x) s = .next t ∧ t.pc = s.pc + 2 ∧
      (t.mem.read s.i.toNat).toNat = val s x / 100 ∧
      (t.mem.read (s.i.toNat + 1)).toNat = val s x / 10 % 10 ∧
      (t.mem.read (s.i.toNat + 2)).toNat = val s x % 10 ∧
      (t.displayDirty = true ↔ s.displayDirty = true ∨ ∃ k, k < 3 ∧ InFb (s.i.toNat + k)) ∧
      ChangesOnly ([.pc, .displayDirty] ++ memItems s.i.toNat 3) s t) ∧
    (0xFFD < s.i.toNat → ∃ t, exec (.ldB x) s = .next t ∧ t.halt = some .addressFault ∧ ChangesOnly [.halt] s t)

/-- LD [I], Vx (R144), Fx55: V0 to Vx at I to I + x, I unchanged, DisplayDirty when one address is in the framebuffer;
AddressFault with nothing stored when I + x > 0xFFF. -/
def Obligations.RegisterDumpStoresV0ToVx : Prop :=
  ∀ (s : State) (x : Reg), decodeWord (wordXkk 0xF x 0x55) = .instr (.storeRegs x) ∧
    (s.i.toNat + x.val ≤ 0xFFF → ∃ t, exec (.storeRegs x) s = .next t ∧ t.pc = s.pc + 2 ∧
      (∀ k : Reg, k ≤ x → t.mem.read (s.i.toNat + k.val) = s.getV k) ∧
      (t.displayDirty = true ↔ s.displayDirty = true ∨ ∃ k, k ≤ x.val ∧ InFb (s.i.toNat + k)) ∧
      ChangesOnly ([.pc, .displayDirty] ++ memItems s.i.toNat (x.val + 1)) s t) ∧
    (0xFFF < s.i.toNat + x.val → ∃ t, exec (.storeRegs x) s = .next t ∧ t.halt = some .addressFault ∧
      ChangesOnly [.halt] s t)

/-- LD Vx, [I] (R145), Fx65: V0 to Vx from I to I + x, I unchanged; AddressFault with no register changed when
I + x > 0xFFF. -/
def Obligations.RegisterLoadReadsV0ToVx : Prop :=
  ∀ (s : State) (x : Reg), decodeWord (wordXkk 0xF x 0x65) = .instr (.loadRegs x) ∧
    (s.i.toNat + x.val ≤ 0xFFF → ∃ t, exec (.loadRegs x) s = .next t ∧ t.pc = s.pc + 2 ∧
      (∀ k : Reg, k ≤ x → t.getV k = s.mem.read (s.i.toNat + k.val)) ∧ ChangesOnly (.pc :: regItems x) s t) ∧
    (0xFFF < s.i.toNat + x.val → ∃ t, exec (.loadRegs x) s = .next t ∧ t.halt = some .addressFault ∧
      ChangesOnly [.halt] s t)

/-- Registers dumped are loaded back: after an LD [I], Vx the same LD Vx, [I], from any later state with the same
memory and I, gives V0 to Vx their old values (R144, R145, R55). -/
def Obligations.LoadAfterDumpRestoresRegisters : Prop :=
  ∀ (s t u : State) (x : Reg), s.i.toNat + x.val ≤ 0xFFF → exec (.storeRegs x) s = .next t →
    u.mem = t.mem → u.i = t.i → ∃ w, exec (.loadRegs x) u = .next w ∧ ∀ k : Reg, k ≤ x → w.getV k = s.getV k

/-- A store is seen by the very next fetch (R58): after an LD [I], Vx over two bytes PC points to, the next Step
fetches them. -/
def Obligations.FetchSeesTheStoreBefore : Prop :=
  ∀ (s t : State) (x k k' : Reg), s.i.toNat + x.val ≤ 0xFFF → k'.val = k.val + 1 → k' ≤ x →
    exec (.storeRegs x) s = .next t → t.pc.toNat = s.i.toNat + k.val →
    ∃ w, t.fetch = some w ∧ w.toNat = val s k * 256 + val s k'

/-! ## Display -/

/-- CLS (R160), 00E0: the 256 framebuffer bytes are zero and nothing else is written, DisplayDirty unconditionally. -/
def Obligations.ClearZeroesTheFramebuffer : Prop :=
  decodeWord 0x00E0 = .instr .cls ∧ ∀ s : State, ∃ t, exec .cls s = .next t ∧ t.pc = s.pc + 2 ∧ t.displayDirty = true ∧
    (∀ a, InFb a → t.mem.read a = 0) ∧ ChangesOnly ([.pc, .displayDirty] ++ memItems 0x0A0 256) s t

/-- DRW Vx, Vy, n (R161), Dxyn: every screen pixel is xored with the sprite, each pixel wrapping, VF is 1 exactly when a lit
pixel was turned off, DisplayDirty unconditionally; AddressFault with nothing drawn when the last sprite byte lies
above 0xFFF. -/
def Obligations.DrawXorsTheSprite : Prop :=
  ∀ (s : State) (x y : Reg) (n : Nat), n ≤ 15 →
    decodeWord (wordXyn 0xD x y n) = .instr (.drw x y n) ∧
    ((n = 0 ∨ s.i.toNat + n - 1 ≤ 0xFFF) → ∃ t, exec (.drw x y n) s = .next t ∧ t.pc = s.pc + 2 ∧
      t.displayDirty = true ∧
      (∀ px py, px < 64 → py < 32 → lit t px py = (lit s px py ^^ toggles s x y n px py)) ∧
      (val t 15 = 1 ↔ ∃ px py, px < 64 ∧ py < 32 ∧ toggles s x y n px py = true ∧ lit s px py = true) ∧
      val t 15 ≤ 1 ∧ ChangesOnly ([.v 15, .pc, .displayDirty] ++ drawnItems s x y n) s t) ∧
    (0 < n → 0xFFF < s.i.toNat + n - 1 → ∃ t, exec (.drw x y n) s = .next t ∧ t.halt = some .addressFault ∧
      ChangesOnly [.halt] s t)

/-- Drawing a sprite twice at the same place restores memory, for a sprite that does not lie in the framebuffer and
coordinates that are not VF (each single draw of the other forms is in DrawXorsTheSprite); the second draw collides
exactly when the first lit a pixel. So on a dark footprint the first draw leaves VF = 0 and the second, of a sprite with
a 1 bit, VF = 1 (the source's example in R165). The exact condition of the second collision is THE MODEL'S READING
(assumption 9, DEDUCED): it follows R161 and differs from R165, which the spec marks as derived, on a footprint whose
every pixel was lit, where R165 says VF = 1 and R161 gives VF = 0. -/
def Obligations.DrawingTwiceRestoresTheScreen : Prop :=
  ∀ (s t u : State) (x y : Reg) (n : Nat), n ≤ 15 → x ≠ 15 → y ≠ 15 → (n = 0 ∨ s.i.toNat + n - 1 ≤ 0xFFF) →
    (∀ r, r < n → ¬ InFb (s.i.toNat + r)) → exec (.drw x y n) s = .next t → exec (.drw x y n) t = .next u →
    (∀ a, u.mem.read a = s.mem.read a) ∧ u.displayDirty = true ∧
    (val u 15 = 1 ↔ ∃ px py, px < 64 ∧ py < 32 ∧ toggles s x y n px py = true ∧ lit s px py = false) ∧
    ((∀ px py, px < 64 → py < 32 → toggles s x y n px py = true → lit s px py = false) →
      val t 15 = 0 ∧ ((∃ r c, r < n ∧ c < 8 ∧ spriteBit s r c = true) → val u 15 = 1))

/-! ## Keypad and timers -/

/-- LD Vx, K (R172), Fx0A: with no key down nothing changes, so that the next Step fetches the instruction again; else
Vx is the least key that is down; the Step's status is OK in both cases. -/
def Obligations.WaitForKeyTakesTheLowestKey : Prop :=
  ∀ (s : State) (x : Reg), decodeWord (wordXkk 0xF x 0x0A) = .instr (.ldVxK x) ∧
    (s.input.keys = 0 → ∃ t, exec (.ldVxK x) s = .next t ∧ ChangesOnly [] s t) ∧
    (s.input.keys ≠ 0 → ∃ t k, exec (.ldVxK x) s = .next t ∧ k < 16 ∧ s.input.keys.getLsbD k = true ∧
      (∀ j, j < k → s.input.keys.getLsbD j = false) ∧ val t x = k ∧ t.pc = s.pc + 2 ∧
      ChangesOnly [.v x, .pc] s t) ∧
    (Executes s (.ldVxK x) → ∃ t, step s = .next t ∧ t.status = .ok ∧
      (s.input.keys = 0 → Executes t (.ldVxK x)))

/-- LD Vx, DT (R173), Fx07, LD DT, Vx (R174), Fx15, LD ST, Vx (R175), Fx18, on the state phases 1 to 3 leave; AudioTrigger is not
touched. -/
def Obligations.TimerMoves : Prop :=
  ∀ (s : State) (x : Reg),
    decodeWord (wordXkk 0xF x 0x07) = .instr (.ldVxDt x) ∧ decodeWord (wordXkk 0xF x 0x15) = .instr (.ldDtVx x) ∧
    decodeWord (wordXkk 0xF x 0x18) = .instr (.ldStVx x) ∧
    (∃ t, exec (.ldVxDt x) s = .next t ∧ t.getV x = s.dt ∧ t.pc = s.pc + 2 ∧ ChangesOnly [.v x, .pc] s t) ∧
    (∃ t, exec (.ldDtVx x) s = .next t ∧ t.dt = s.getV x ∧ t.pc = s.pc + 2 ∧ ChangesOnly [.dt, .pc] s t) ∧
    (∃ t, exec (.ldStVx x) s = .next t ∧ t.st = s.getV x ∧ t.pc = s.pc + 2 ∧ ChangesOnly [.st, .pc] s t)

/-! ## Reset and loading -/

/-- Reset (R32, R220), of the construction and of any later one: every item at its value, the glyph table of R46 in
memory and zero everywhere else. The inputs and the status are the model's own and are not spoken of. -/
def Obligations.ResetValues : Prop :=
  ∀ s : State, ∀ r ∈ [State.reset, hostReset s],
    (∀ x, r.getV x = 0) ∧ r.i = 0 ∧ r.pc = 0x200 ∧ (∀ k : Fin 16, r.stack[k] = 0) ∧ r.sp = -1 ∧ r.dt = 0 ∧
    r.st = 0 ∧ r.displayDirty = false ∧ r.audioTrigger = false ∧ r.halt = none ∧
    (∀ d row, d < 16 → row < 5 → r.mem.read (0x050 + 5 * d + row) = (glyphs.getD d []).getD row 0) ∧
    (∀ a, a < 0x1000 → a < 0x050 ∨ 0x09F < a → r.mem.read a = 0)

/-- LoadProgram (R222 to R224): a ROM of at most 3584 bytes is copied to 0x200 upward, a longer one rejected whole; no
byte beyond it and no other state changes. -/
def Obligations.LoadProgramCopiesOrRejects : Prop :=
  ∀ (s : State) (bytes : List Byte),
    (bytes.length ≤ 3584 → (loadProgram bytes s).1 = true ∧
      (∀ k, (h : k < bytes.length) → (loadProgram bytes s).2.mem.read (0x200 + k) = bytes[k]) ∧
      ChangesOnly (memItems 0x200 bytes.length) s (loadProgram bytes s).2) ∧
    (3584 < bytes.length → loadProgram bytes s = (false, s))
end

