-- ==== Sys2Proof/Laws/Decode.lean ====
section
/-! SUPPORT. The fields of a word as numbers, the fields of the words the encoder builds, and that the decoder names the
word it does not know. -/

namespace Sys2Proof

/-! ## Fields as numbers (R61) -/

theorem fieldO_toNat (w : Word) : (fieldO w).toNat = w.toNat / 4096 := by
  have := w.isLt
  simp only [fieldO, BitVec.extractLsb'_toNat, Nat.shiftRight_eq_div_pow]
  omega

theorem fieldX_val (w : Word) : (fieldX w).val = w.toNat / 256 % 16 := by
  have : (fieldX w).val = (w.extractLsb' 8 4).toNat := rfl
  rw [this, BitVec.extractLsb'_toNat, Nat.shiftRight_eq_div_pow]

theorem fieldY_val (w : Word) : (fieldY w).val = w.toNat / 16 % 16 := by
  have : (fieldY w).val = (w.extractLsb' 4 4).toNat := rfl
  rw [this, BitVec.extractLsb'_toNat, Nat.shiftRight_eq_div_pow]

theorem fieldN_toNat (w : Word) : (fieldN w).toNat = w.toNat % 16 := by
  simp [fieldN]

theorem fieldKK_toNat (w : Word) : (fieldKK w).toNat = w.toNat % 256 := by
  simp [fieldKK]

theorem fieldNNN_toNat (w : Word) : (fieldNNN w).toNat = w.toNat % 4096 := by
  simp [fieldNNN]

/-! ## The words the encoder builds (R62), as numbers -/

theorem append_toNat {m k : Nat} (a : BitVec m) (b : BitVec k) : (a ++ b).toNat = a.toNat * 2 ^ k + b.toNat := by
  rw [BitVec.toNat_append, ← Nat.shiftLeft_add_eq_or_of_lt b.isLt, Nat.shiftLeft_eq]

theorem regBits_toNat (x : Reg) : (regBits x).toNat = x.val := by
  have := x.isLt
  simp [regBits]

theorem wordNNN_toNat (o : BitVec 4) (nnn : Addr12) : (wordNNN o nnn).toNat = o.toNat * 4096 + nnn.toNat := by
  simp only [wordNNN, append_toNat]; omega

theorem wordXKK_toNat (o : BitVec 4) (x : Reg) (kk : Byte) :
    (wordXKK o x kk).toNat = o.toNat * 4096 + x.val * 256 + kk.toNat := by
  simp only [wordXKK, append_toNat, regBits_toNat]; omega

theorem wordXYN_toNat (o : BitVec 4) (x y : Reg) (n : BitVec 4) :
    (wordXYN o x y n).toNat = o.toNat * 4096 + x.val * 256 + y.val * 16 + n.toNat := by
  simp only [wordXYN, append_toNat, regBits_toNat]; omega

/-! ## Their fields -/

section
variable (o : BitVec 4) (nnn : Addr12) (x y : Reg) (kk : Byte) (n : BitVec 4)

@[simp] theorem fieldO_wordNNN : fieldO (wordNNN o nnn) = o := by
  apply BitVec.eq_of_toNat_eq
  have := nnn.isLt
  rw [fieldO_toNat, wordNNN_toNat]; omega

@[simp] theorem fieldNNN_wordNNN : fieldNNN (wordNNN o nnn) = nnn := by
  apply BitVec.eq_of_toNat_eq
  have := nnn.isLt
  rw [fieldNNN_toNat, wordNNN_toNat]; omega

@[simp] theorem fieldO_wordXKK : fieldO (wordXKK o x kk) = o := by
  apply BitVec.eq_of_toNat_eq
  have := kk.isLt
  rw [fieldO_toNat, wordXKK_toNat]; omega

@[simp] theorem fieldX_wordXKK : fieldX (wordXKK o x kk) = x := by
  apply Fin.ext
  have := kk.isLt
  rw [fieldX_val, wordXKK_toNat]; omega

@[simp] theorem fieldKK_wordXKK : fieldKK (wordXKK o x kk) = kk := by
  apply BitVec.eq_of_toNat_eq
  have := kk.isLt
  rw [fieldKK_toNat, wordXKK_toNat]; omega

@[simp] theorem fieldO_wordXYN : fieldO (wordXYN o x y n) = o := by
  apply BitVec.eq_of_toNat_eq
  have := n.isLt
  rw [fieldO_toNat, wordXYN_toNat]; omega

@[simp] theorem fieldX_wordXYN : fieldX (wordXYN o x y n) = x := by
  apply Fin.ext
  have := n.isLt
  rw [fieldX_val, wordXYN_toNat]; omega

@[simp] theorem fieldY_wordXYN : fieldY (wordXYN o x y n) = y := by
  apply Fin.ext
  have := n.isLt
  rw [fieldY_val, wordXYN_toNat]; omega

@[simp] theorem fieldN_wordXYN : fieldN (wordXYN o x y n) = n := by
  apply BitVec.eq_of_toNat_eq
  have := n.isLt
  rw [fieldN_toNat, wordXYN_toNat]; omega

end

/-! ## A word from its fields, and its fixed bits (R62, R65) -/

theorem wordNNN_eta (w : Word) : wordNNN (fieldO w) (fieldNNN w) = w := by
  apply BitVec.eq_of_toNat_eq
  rw [wordNNN_toNat, fieldO_toNat, fieldNNN_toNat]; omega

theorem wordXKK_eta (w : Word) : wordXKK (fieldO w) (fieldX w) (fieldKK w) = w := by
  apply BitVec.eq_of_toNat_eq
  rw [wordXKK_toNat, fieldO_toNat, fieldX_val, fieldKK_toNat]; omega

theorem wordXYN_eta (w : Word) : wordXYN (fieldO w) (fieldX w) (fieldY w) (fieldN w) = w := by
  apply BitVec.eq_of_toNat_eq
  rw [wordXYN_toNat, fieldO_toNat, fieldX_val, fieldY_val, fieldN_toNat]; omega

/-- What the mask of a row of format NNN keeps. -/
theorem wordNNN_mask (o : BitVec 4) (nnn : Addr12) : wordNNN o nnn &&& 0xF000 = wordNNN o 0 := by
  apply BitVec.eq_of_getLsbD_eq
  intro k hk
  have m : ∀ k < 16, (0xF000 : Word).getLsbD k = decide (12 ≤ k) := by decide
  by_cases h : k < 12
  · have : ¬ 12 ≤ k := by omega
    rw [BitVec.getLsbD_and, m k hk]
    simp only [wordNNN, BitVec.getLsbD_append, h]; simp [this]
  · have : 12 ≤ k := by omega
    rw [BitVec.getLsbD_and, m k hk]
    simp only [wordNNN, BitVec.getLsbD_append, h]; simp [this]

/-- What the mask of a row of format XSUB keeps. -/
theorem wordXKK_mask (o : BitVec 4) (x : Reg) (kk : Byte) : wordXKK o x kk &&& 0xF0FF = wordXKK o 0 kk := by
  apply BitVec.eq_of_getLsbD_eq
  intro k hk
  have m : ∀ k < 16, (0xF0FF : Word).getLsbD k = decide (k < 8 ∨ 12 ≤ k) := by decide
  rw [BitVec.getLsbD_and, m k hk]
  simp only [wordXKK, BitVec.getLsbD_append]
  by_cases h : k < 8
  · simp [h]
  · by_cases h' : k - 8 < 4
    · have : ¬ 12 ≤ k := by omega
      simp [h, h', this, regBits]
    · have : 12 ≤ k := by omega
      simp [h, h', this]

/-- What the mask of a row of format XY keeps. -/
theorem wordXYN_mask (o : BitVec 4) (x y : Reg) (n : BitVec 4) : wordXYN o x y n &&& 0xF00F = wordXYN o 0 0 n := by
  apply BitVec.eq_of_getLsbD_eq
  intro k hk
  have m : ∀ k < 16, (0xF00F : Word).getLsbD k = decide (k < 4 ∨ 12 ≤ k) := by decide
  rw [BitVec.getLsbD_and, m k hk]
  simp only [wordXYN, BitVec.getLsbD_append]
  by_cases h4 : k < 4
  · have : k < 8 := by omega
    simp [h4, this]
  · by_cases h8 : k < 8
    · have : ¬ 12 ≤ k := by omega
      simp [h4, h8, this, regBits]
    · by_cases h' : k - 8 < 4
      · have : ¬ 12 ≤ k := by omega
        simp [h4, h8, h', this, regBits]
      · have : 12 ≤ k := by omega
        simp [h4, h8, h', this]

/-- What the mask of a row of format XKK keeps. -/
theorem wordXKK_mask_o (o : BitVec 4) (x : Reg) (kk : Byte) : wordXKK o x kk &&& 0xF000 = wordXKK o 0 0 := by
  apply BitVec.eq_of_getLsbD_eq
  intro k hk
  have m : ∀ k < 16, (0xF000 : Word).getLsbD k = decide (12 ≤ k) := by decide
  rw [BitVec.getLsbD_and, m k hk]
  simp only [wordXKK, BitVec.getLsbD_append]
  by_cases h : k < 8
  · have : ¬ 12 ≤ k := by omega
    simp [h, this]
  · by_cases h' : k - 8 < 4
    · have : ¬ 12 ≤ k := by omega
      simp [h, h', this, regBits]
    · have : 12 ≤ k := by omega
      simp [h, h', this]

/-- What the mask of a row of format XYN keeps. -/
theorem wordXYN_mask_o (o : BitVec 4) (x y : Reg) (n : BitVec 4) : wordXYN o x y n &&& 0xF000 = wordXYN o 0 0 0 := by
  apply BitVec.eq_of_getLsbD_eq
  intro k hk
  have m : ∀ k < 16, (0xF000 : Word).getLsbD k = decide (12 ≤ k) := by decide
  rw [BitVec.getLsbD_and, m k hk]
  simp only [wordXYN, BitVec.getLsbD_append]
  by_cases h : 12 ≤ k
  · have h1 : ¬ k < 4 := by omega
    have h2 : ¬ k < 8 := by omega
    have h3 : ¬ k - 8 < 4 := by omega
    simp [h, h2, h3]
  · by_cases h8 : k < 8
    · by_cases h4 : k < 4
      · simp [h, h8, h4]
      · simp [h, h8, h4, regBits]
    · have h3 : k - 8 < 4 := by omega
      simp [h, h8, h3, regBits]

/-- The values of a nibble, for going through the primary opcodes. -/
theorem nibble_cases (o : BitVec 4) :
    o = 0#4 ∨ o = 1#4 ∨ o = 2#4 ∨ o = 3#4 ∨ o = 4#4 ∨ o = 5#4 ∨ o = 6#4 ∨ o = 7#4 ∨ o = 8#4 ∨ o = 9#4 ∨
      o = 10#4 ∨ o = 11#4 ∨ o = 12#4 ∨ o = 13#4 ∨ o = 14#4 ∨ o = 15#4 := by
  have : ∀ k : Nat, k < 16 → k = 0 ∨ k = 1 ∨ k = 2 ∨ k = 3 ∨ k = 4 ∨ k = 5 ∨ k = 6 ∨ k = 7 ∨ k = 8 ∨ k = 9 ∨
      k = 10 ∨ k = 11 ∨ k = 12 ∨ k = 13 ∨ k = 14 ∨ k = 15 := by omega
  simp only [← BitVec.toNat_inj]
  exact this _ o.isLt

/-! ## The decoder's rejection -/

/-- The unknown word the decoder names is the word it was given (R68). -/
theorem decodeWord_unknown {w u : Word} (h : decodeWord w = .unknown u) : u = w := by
  unfold decodeWord decodeFixed decodeAlu decodeKey decodeMisc at h
  simp only at h
  repeat' split at h
  all_goals first | exact (Decoded.unknown.inj h).symm | cases h

end Sys2Proof
end

