-- ==== Sys2Proof/Laws/Memory.lean ====
section
/-! SUPPORT. The laws of memory: what a read after a write gives, that every write keeps the canonical form, and that
canonical memories that read the same are equal. -/

namespace Sys2Proof.Machine.Memory

/-! ## Read after write -/

theorem read_erase (m : Memory) (a x : Nat) :
    (m.erase a).read x = if x = a then resetByte a else m.read x := by
  induction m with
  | nil => by_cases h : x = a <;> simp [erase, read, h]
  | cons c rest ih =>
    obtain ⟨k, b⟩ := c
    unfold erase at ih ⊢
    by_cases hk : k = a
    · by_cases hx : x = a
      · simp_all
      · have : a ≠ x := fun e => hx e.symm
        simp_all [read]
    · by_cases hx : x = a
      · simp_all [read]
      · by_cases hkx : k = x <;> simp_all [read]

theorem read_insert (m : Memory) (a x : Nat) (b : Byte) (h : ∀ c ∈ m, c.1 ≠ a) :
    (insert a b m).read x = if x = a then b else m.read x := by
  induction m with
  | nil =>
    by_cases hx : x = a
    · simp [insert, read, hx]
    · have : a ≠ x := fun e => hx e.symm
      simp [insert, read, hx, this]
  | cons c rest ih =>
    obtain ⟨k, d⟩ := c
    have hk : k ≠ a := h (k, d) (by simp)
    have ih := ih fun c hc => h c (by simp [hc])
    unfold insert
    by_cases hx : x = a
    · subst hx
      split <;> simp [read, hk, ih]
    · have : a ≠ x := fun e => hx e.symm
      split <;> simp [read, hx, this, ih]

/-- A read after a write: the byte written at its address, the old byte everywhere else. -/
theorem read_write (m : Memory) (a x : Nat) (b : Byte) :
    (m.write a b).read x = if x = a then b else m.read x := by
  unfold write
  split
  · next h => rw [read_erase, h]
  · rw [read_insert _ _ _ _ (by simp [erase]), read_erase]
    split <;> simp [*]

@[simp] theorem read_write_same (m : Memory) (a : Nat) (b : Byte) : (m.write a b).read a = b := by
  simp [read_write]

theorem read_write_ne (m : Memory) {a x : Nat} (b : Byte) (h : x ≠ a) : (m.write a b).read x = m.read x := by
  simp [read_write, h]

/-- A read after storing consecutive bytes. -/
theorem read_writeBytes (bytes : List Byte) (m : Memory) (a x : Nat) :
    (m.writeBytes a bytes).read x =
      if h : a ≤ x ∧ x < a + bytes.length then bytes[x - a]'(by omega) else m.read x := by
  induction bytes generalizing m a with
  | nil => simp [writeBytes]
  | cons b bs ih =>
    rw [writeBytes, ih]
    by_cases hx : x = a
    · subst hx
      simp
    · by_cases h : a + 1 ≤ x ∧ x < a + 1 + bs.length
      · have h' : a ≤ x ∧ x < a + (b :: bs).length := by simp; omega
        rw [dif_pos h, dif_pos h']
        have e : x - a = x - (a + 1) + 1 := by omega
        simp [e]
      · have h' : ¬ (a ≤ x ∧ x < a + (b :: bs).length) := by simp; omega
        rw [dif_neg h, dif_neg h', read_write_ne _ _ hx]

/-- Outside the bytes stored, a read is as before. -/
theorem read_writeBytes_outside (bytes : List Byte) (m : Memory) {a x : Nat}
    (h : x < a ∨ a + bytes.length ≤ x) : (m.writeBytes a bytes).read x = m.read x := by
  rw [read_writeBytes, dif_neg (by omega)]

/-- Byte `k` of the bytes stored is read back at its address. -/
theorem read_writeBytes_inside (bytes : List Byte) (m : Memory) (a k : Nat) (h : k < bytes.length) :
    (m.writeBytes a bytes).read (a + k) = bytes[k] := by
  rw [read_writeBytes, dif_pos (by omega)]
  simp

@[simp] theorem length_readBytes (m : Memory) (a n : Nat) : (m.readBytes a n).length = n := by
  simp [readBytes]

theorem getElem_readBytes (m : Memory) (a n k : Nat) (h : k < n) :
    (m.readBytes a n)[k]'(by simpa using h) = m.read (a + k) := by
  simp [readBytes]

/-! ## The canonical form -/

theorem wfFrom_mono {m : Memory} {lo lo' : Nat} (h : lo' ≤ lo) (w : wfFrom lo m = true) : wfFrom lo' m = true := by
  cases m with
  | nil => rfl
  | cons c rest =>
    obtain ⟨k, b⟩ := c
    simp only [wfFrom, Bool.and_eq_true, decide_eq_true_eq] at w ⊢
    exact ⟨⟨⟨by omega, w.1.1.2⟩, w.1.2⟩, w.2⟩

theorem wfFrom_erase {m : Memory} {lo : Nat} (a : Nat) (w : wfFrom lo m = true) : wfFrom lo (m.erase a) = true := by
  induction m generalizing lo with
  | nil => rfl
  | cons c rest ih =>
    obtain ⟨k, b⟩ := c
    simp only [wfFrom, Bool.and_eq_true, decide_eq_true_eq] at w
    have ih := ih w.2
    by_cases hk : k = a
    · have e : erase ((k, b) :: rest) a = erase rest a := by simp [erase, hk]
      rw [e]
      exact wfFrom_mono (by omega) ih
    · have e : erase ((k, b) :: rest) a = (k, b) :: erase rest a := by simp [erase, hk]
      rw [e]
      simp only [wfFrom, Bool.and_eq_true, decide_eq_true_eq]
      exact ⟨w.1, ih⟩

theorem wfFrom_insert {m : Memory} {lo a : Nat} {b : Byte} (w : wfFrom lo m = true) (hlo : lo ≤ a)
    (ha : a < Config.memSize) (hb : b ≠ resetByte a) (h : ∀ c ∈ m, c.1 ≠ a) : wfFrom lo (insert a b m) = true := by
  induction m generalizing lo with
  | nil => simp_all [insert, wfFrom]
  | cons c rest ih =>
    obtain ⟨k, d⟩ := c
    have hk : k ≠ a := h (k, d) (by simp)
    simp only [wfFrom, Bool.and_eq_true, decide_eq_true_eq] at w
    unfold insert
    split
    · simp only [wfFrom, Bool.and_eq_true, decide_eq_true_eq]
      exact ⟨⟨⟨hlo, ha⟩, by simpa using hb⟩, ⟨⟨by omega, w.1.1.2⟩, w.1.2⟩, w.2⟩
    · simp only [wfFrom, Bool.and_eq_true, decide_eq_true_eq]
      exact ⟨w.1, ih w.2 (by omega) fun c hc => h c (by simp [hc])⟩

/-- A write inside the address space keeps the canonical form. -/
theorem wf_write {m : Memory} {a : Nat} (b : Byte) (w : m.wf = true) (ha : a < Config.memSize) :
    (m.write a b).wf = true := by
  unfold write
  split
  · exact wfFrom_erase a w
  · next hb => exact wfFrom_insert (wfFrom_erase a w) (Nat.zero_le _) ha hb (by simp [erase])

/-- Storing consecutive bytes inside the address space keeps the canonical form. -/
theorem wf_writeBytes {m : Memory} {a : Nat} {bytes : List Byte} (w : m.wf = true)
    (h : bytes = [] ∨ a + bytes.length ≤ Config.memSize) : (m.writeBytes a bytes).wf = true := by
  induction bytes generalizing m a with
  | nil => exact w
  | cons b bs ih =>
    simp only [reduceCtorEq, List.length_cons, false_or] at h
    exact ih (wf_write b w (by omega)) (Or.inr (by omega))

/-- Reset memory is canonical. -/
theorem wf_nil : Memory.wf [] = true := rfl

theorem read_below {m : Memory} {lo a : Nat} (w : wfFrom lo m = true) (h : a < lo) : m.read a = resetByte a := by
  induction m generalizing lo with
  | nil => rfl
  | cons c rest ih =>
    obtain ⟨k, b⟩ := c
    simp only [wfFrom, Bool.and_eq_true, decide_eq_true_eq] at w
    have hk : k ≠ a := by omega
    simp only [read, hk, if_false]
    exact ih w.2 (by omega)

theorem wfFrom_tail {m : Memory} {lo k : Nat} {b : Byte} (w : wfFrom lo ((k, b) :: m) = true) :
    wfFrom k ((k, b) :: m) = true := by
  simp only [wfFrom, Bool.and_eq_true, decide_eq_true_eq] at w ⊢
  exact ⟨⟨⟨Nat.le_refl k, w.1.1.2⟩, w.1.2⟩, w.2⟩

theorem eq_of_read_eq_from {m m' : Memory} {lo : Nat} (w : wfFrom lo m = true) (w' : wfFrom lo m' = true)
    (h : ∀ a, m.read a = m'.read a) : m = m' := by
  induction m generalizing m' lo with
  | nil =>
    cases m' with
    | nil => rfl
    | cons c rest =>
      obtain ⟨k, b⟩ := c
      simp only [wfFrom, Bool.and_eq_true, bne_iff_ne, decide_eq_true_eq] at w'
      exact absurd (by simpa [read] using (h k).symm) w'.1.2
  | cons c rest ih =>
    obtain ⟨k, b⟩ := c
    cases m' with
    | nil =>
      simp only [wfFrom, Bool.and_eq_true, bne_iff_ne, decide_eq_true_eq] at w
      exact absurd (by simpa [read] using h k) w.1.2
    | cons c' rest' =>
      obtain ⟨k', b'⟩ := c'
      have below : ∀ a < k, read ((k, b) :: rest) a = resetByte a := fun a => read_below (wfFrom_tail w)
      have below' : ∀ a < k', read ((k', b') :: rest') a = resetByte a := fun a => read_below (wfFrom_tail w')
      simp only [wfFrom, Bool.and_eq_true, bne_iff_ne, decide_eq_true_eq] at w w'
      have hk : k = k' := by
        rcases Nat.lt_trichotomy k k' with hlt | heq | hgt
        · have e := h k
          rw [below' k hlt] at e
          exact absurd (by simpa [read] using e) w.1.2
        · exact heq
        · have e := h k'
          rw [below k' hgt] at e
          exact absurd (by simpa [read] using e.symm) w'.1.2
      subst hk
      have hb : b = b' := by simpa [read] using h k
      subst hb
      refine congrArg _ (ih w.2 w'.2 fun a => ?_)
      by_cases ha : a < k + 1
      · rw [read_below w.2 ha, read_below w'.2 ha]
      · have : k ≠ a := by omega
        simpa [read, this] using h a

/-- Equal memories are equal data: two canonical memories that read the same everywhere are the same list. -/
theorem eq_of_read_eq {m m' : Memory} (w : m.wf = true) (w' : m'.wf = true) (h : ∀ a, m.read a = m'.read a) :
    m = m' :=
  eq_of_read_eq_from w w' h

end Sys2Proof.Machine.Memory
end

