-- ==== Sys2Proof/Laws/Draw.lean ====
section
/-! SUPPORT. What drawing does, pixel by pixel: toggling one pixel, toggling a list of distinct pixels, and which
pixels a sprite toggles (spec/44_display.md R161, R162). -/

namespace Sys2Proof.Machine

/-! ## One pixel -/

/-- Pixels of the screen at the same bit of the same byte are the same pixel (R44). -/
theorem pixel_unique {px py qx qy : Nat} (hp : px < 64) (hq : qx < 64) (ha : pixelAddr px py = pixelAddr qx qy)
    (hb : pixelBit px = pixelBit qx) : px = qx ∧ py = qy := by
  simp only [pixelAddr, pixelBit, Config.fbBase] at ha hb
  omega

theorem getLsbD_toggle (b : Byte) {k j : Nat} (hk : k < 8) :
    (b ^^^ ((1 : Byte) <<< k)).getLsbD j = (b.getLsbD j ^^ decide (j = k)) := by
  by_cases hj : j < 8
  · rw [BitVec.getLsbD_xor, BitVec.getLsbD_shiftLeft]
    rcases Nat.lt_trichotomy j k with h | h | h
    · have : j ≠ k := by omega
      simp [h, this]
    · subst h; simp [hj]
    · have h1 : j ≠ k := by omega
      have h2 : ¬ j < k := by omega
      have h3 : j - k ≠ 0 := by omega
      have h4 : (1 : Byte).getLsbD (j - k) = false := by
        have : (1 : Byte) = 1#8 := rfl
        rw [this, BitVec.getLsbD_one]; simp [h3]
      simp only [h4, h1, h2, decide_false, Bool.and_false]
  · have : j ≠ k := by omega
    rw [BitVec.getLsbD_of_ge _ _ (by omega), BitVec.getLsbD_of_ge _ _ (by omega)]
    simp [this]

namespace Memory

/-- Toggling one pixel turns that pixel over and no other. -/
theorem pixel_togglePixel (m : Memory) {px py qx qy : Nat} (hp : px < 64) (hq : qx < 64) :
    (m.togglePixel px py).pixel qx qy = (m.pixel qx qy ^^ decide (qx = px ∧ qy = py)) := by
  unfold pixel togglePixel
  simp only
  rw [read_write]
  have hk : pixelBit px < 8 := by unfold pixelBit; omega
  split
  · next ha =>
    rw [getLsbD_toggle _ hk, ← ha]
    congr 1
    refine decide_eq_decide.mpr ⟨fun hb => ?_, fun ⟨h1, _⟩ => by rw [h1]⟩
    exact pixel_unique hq hp ha hb
  · next ha =>
    have : ¬ (qx = px ∧ qy = py) := fun ⟨h1, h2⟩ => ha (by rw [h1, h2])
    simp [this]

theorem read_togglePixel_ne (m : Memory) {px py a : Nat} (h : a ≠ pixelAddr px py) :
    (m.togglePixel px py).read a = m.read a := read_write_ne _ _ h

/-! ## A list of pixels -/

/-- Outside the bytes of the pixels toggled, memory is as before. -/
theorem read_drawPixels (l : List (Nat × Nat)) (m : Memory) (c : Bool) {a : Nat}
    (h : ∀ p ∈ l, a ≠ pixelAddr p.1 p.2) : (m.drawPixels c l).1.read a = m.read a := by
  induction l generalizing m c with
  | nil => rfl
  | cons p l ih =>
    rw [drawPixels, ih _ _ fun q hq => h q (by simp [hq]), read_togglePixel_ne _ (h p (by simp))]

/-- Toggling distinct pixels turns over exactly those. -/
theorem pixel_drawPixels (l : List (Nat × Nat)) (m : Memory) (c : Bool) (nodup : l.Nodup) (hx : ∀ p ∈ l, p.1 < 64)
    {qx qy : Nat} (hq : qx < 64) :
    (m.drawPixels c l).1.pixel qx qy = (m.pixel qx qy ^^ decide ((qx, qy) ∈ l)) := by
  induction l generalizing m c with
  | nil => simp [drawPixels]
  | cons p l ih =>
    obtain ⟨px, py⟩ := p
    rw [List.nodup_cons] at nodup
    rw [drawPixels, ih _ _ nodup.2 fun q hq => hx q (by simp [hq]), pixel_togglePixel _ (hx (px, py) (by simp)) hq]
    by_cases h : qx = px ∧ qy = py
    · obtain ⟨rfl, rfl⟩ := h
      simp [nodup.1]
    · have h' : (qx, qy) ≠ (px, py) := by simpa using h
      simp [h, h']

/-- The collision of toggling distinct pixels: one of them was lit before. -/
theorem collided_drawPixels (l : List (Nat × Nat)) (m : Memory) (c : Bool) (nodup : l.Nodup)
    (hx : ∀ p ∈ l, p.1 < 64) :
    (m.drawPixels c l).2 = true ↔ c = true ∨ ∃ p ∈ l, m.pixel p.1 p.2 = true := by
  induction l generalizing m c with
  | nil => simp [drawPixels]
  | cons p l ih =>
    obtain ⟨px, py⟩ := p
    rw [List.nodup_cons] at nodup
    rw [drawPixels, ih _ _ nodup.2 fun q hq => hx q (by simp [hq])]
    have same : ∀ q ∈ l, (m.togglePixel px py).pixel q.1 q.2 = m.pixel q.1 q.2 := by
      intro q hq
      have hne : ¬ (q.1 = px ∧ q.2 = py) := fun ⟨h1, h2⟩ => nodup.1 (by rw [← h1, ← h2]; exact hq)
      rw [pixel_togglePixel _ (hx (px, py) (by simp)) (hx q (by simp [hq]))]
      simp [hne]
    constructor
    · rintro (h | ⟨q, hq, hl⟩)
      · rcases Bool.or_eq_true_iff.mp h with h | h
        · exact .inl h
        · exact .inr ⟨(px, py), by simp, h⟩
      · exact .inr ⟨q, by simp [hq], by rw [← same q hq]; exact hl⟩
    · rintro (h | ⟨q, hq, hl⟩)
      · exact .inl (by simp [h])
      · rcases List.mem_cons.mp hq with rfl | hq
        · exact .inl (by simp [hl])
        · exact .inr ⟨q, hq, by rw [same q hq]; exact hl⟩

/-- The collision of toggling the same distinct pixels a second time: one of them was dark before the first time, so
that the first time lit it. -/
theorem collided_drawPixels_again (l : List (Nat × Nat)) (m : Memory) (c : Bool) (nodup : l.Nodup)
    (hx : ∀ p ∈ l, p.1 < 64) :
    ((m.drawPixels c l).1.drawPixels false l).2 = true ↔ ∃ p ∈ l, m.pixel p.1 p.2 = false := by
  rw [collided_drawPixels _ _ _ nodup hx]
  simp only [Bool.false_eq_true, false_or]
  refine exists_congr fun p => and_congr_right fun hp => ?_
  rw [pixel_drawPixels _ _ _ nodup hx (hx p hp)]
  simp [hp]

/-- Where every pixel was lit before, the second time meets no lit pixel: R161 then gives VF = 0, whatever R165 says of a
footprint that was not clear (assumption 9). -/
theorem not_collided_drawPixels_again (l : List (Nat × Nat)) (m : Memory) (c : Bool) (nodup : l.Nodup)
    (hx : ∀ p ∈ l, p.1 < 64) (lit : ∀ p ∈ l, m.pixel p.1 p.2 = true) :
    ((m.drawPixels c l).1.drawPixels false l).2 = false := by
  rw [← Bool.not_eq_true, collided_drawPixels_again _ _ _ nodup hx]
  rintro ⟨p, hp, dark⟩
  rw [lit p hp] at dark
  cases dark

/-- Drawing keeps the canonical form: framebuffer addresses are in range by construction (R193). -/
theorem wf_drawPixels (l : List (Nat × Nat)) {m : Memory} (c : Bool) (w : m.wf = true)
    (h : ∀ p ∈ l, p.1 < 64 ∧ p.2 < 32) : (m.drawPixels c l).1.wf = true := by
  induction l generalizing m c with
  | nil => exact w
  | cons p l ih =>
    obtain ⟨px, py⟩ := p
    rw [drawPixels]
    have hp := h (px, py) (by simp)
    refine ih _ (wf_write _ w ?_) fun q hq => h q (by simp [hq])
    simp only [pixelAddr, Config.fbBase, Config.memSize]
    omega

end Memory

/-! ## The pixels of a sprite -/

theorem mem_spriteRow {x0 y : Nat} {row : Byte} {p : Nat × Nat} :
    p ∈ spriteRow x0 y row ↔ ∃ c, c < 8 ∧ row.getLsbD (7 - c) = true ∧ p = ((x0 + c) % 64, y) := by
  simp only [spriteRow, List.mem_map, List.mem_filter, List.mem_range, Config.screenWidth]
  exact exists_congr fun c => ⟨fun ⟨⟨h1, h2⟩, h3⟩ => ⟨h1, h2, h3.symm⟩, fun ⟨h1, h2, h3⟩ => ⟨⟨h1, h2⟩, h3.symm⟩⟩

/-- "Sprite pixel (c, r) lands on screen pixel ((Vx + c) mod 64, (Vy + r) mod 32)" (R162). -/
theorem mem_spritePixels (rows : List Byte) {x0 y0 : Nat} {p : Nat × Nat} :
    p ∈ spritePixels x0 y0 rows ↔
      ∃ r c, ∃ h : r < rows.length, c < 8 ∧ rows[r].getLsbD (7 - c) = true ∧
        p = ((x0 + c) % 64, (y0 + r) % 32) := by
  induction rows generalizing y0 with
  | nil => simp [spritePixels]
  | cons row rows ih =>
    rw [spritePixels, List.mem_append, mem_spriteRow, ih]
    constructor
    · rintro (⟨c, hc, hb, rfl⟩ | ⟨r, c, h, hc, hb, rfl⟩)
      · exact ⟨0, c, by simp, hc, by simpa using hb, rfl⟩
      · exact ⟨r + 1, c, by simpa using h, hc, by simpa using hb, by congr 2; omega⟩
    · rintro ⟨r, c, h, hc, hb, rfl⟩
      cases r with
      | zero => exact .inl ⟨c, hc, by simpa using hb, rfl⟩
      | succ r => exact .inr ⟨r, c, by simpa using h, hc, by simpa using hb, by congr 2; omega⟩

theorem spritePixels_bounds (rows : List Byte) {x0 y0 : Nat} {p : Nat × Nat} (h : p ∈ spritePixels x0 y0 rows) :
    p.1 < 64 ∧ p.2 < 32 := by
  obtain ⟨r, c, -, -, -, rfl⟩ := (mem_spritePixels rows).mp h
  exact ⟨Nat.mod_lt _ (by decide), Nat.mod_lt _ (by decide)⟩

theorem nodup_spriteRow (x0 y : Nat) (row : Byte) : (spriteRow x0 y row).Nodup := by
  refine List.Nodup.map_on ?_ (List.Nodup.filter _ List.nodup_range)
  intro c hc d hd h
  simp only [List.mem_filter, List.mem_range, Prod.mk.injEq, and_true, Config.screenWidth] at hc hd h
  omega

/-- "no screen pixel is touched twice by one draw" (R162), for at most 32 rows. -/
theorem nodup_spritePixels (rows : List Byte) {x0 y0 : Nat} (h : rows.length ≤ 32) :
    (spritePixels x0 y0 rows).Nodup := by
  induction rows generalizing y0 with
  | nil => exact List.nodup_nil
  | cons row rows ih =>
    rw [spritePixels]
    simp only [List.length_cons] at h
    refine List.Nodup.append (nodup_spriteRow _ _ _) (ih (by omega)) fun p hp hq => ?_
    obtain ⟨c, -, -, rfl⟩ := mem_spriteRow.mp hp
    obtain ⟨r, d, hr, -, -, e⟩ := (mem_spritePixels rows).mp hq
    simp only [Prod.mk.injEq, Config.screenHeight] at e
    omega

end Sys2Proof.Machine
end

