-- ==== Sys2Proof/Laws/State.lean ====
section
/-! SUPPORT. One lemma per field per update of the state, so that no proof unfolds a record update. -/

namespace Sys2Proof.Machine.State

variable (s : State)

/-! ## `setV` -/

@[simp] theorem setV_i (x : Reg) (b : Byte) : (s.setV x b).i = s.i := rfl
@[simp] theorem setV_pc (x : Reg) (b : Byte) : (s.setV x b).pc = s.pc := rfl
@[simp] theorem setV_stack (x : Reg) (b : Byte) : (s.setV x b).stack = s.stack := rfl
@[simp] theorem setV_depth (x : Reg) (b : Byte) : (s.setV x b).depth = s.depth := rfl
@[simp] theorem setV_dt (x : Reg) (b : Byte) : (s.setV x b).dt = s.dt := rfl
@[simp] theorem setV_st (x : Reg) (b : Byte) : (s.setV x b).st = s.st := rfl
@[simp] theorem setV_displayDirty (x : Reg) (b : Byte) : (s.setV x b).displayDirty = s.displayDirty := rfl
@[simp] theorem setV_audioTrigger (x : Reg) (b : Byte) : (s.setV x b).audioTrigger = s.audioTrigger := rfl
@[simp] theorem setV_halt (x : Reg) (b : Byte) : (s.setV x b).halt = s.halt := rfl
@[simp] theorem setV_mem (x : Reg) (b : Byte) : (s.setV x b).mem = s.mem := rfl
@[simp] theorem setV_input (x : Reg) (b : Byte) : (s.setV x b).input = s.input := rfl
@[simp] theorem setV_pending (x : Reg) (b : Byte) : (s.setV x b).pending = s.pending := rfl
@[simp] theorem setV_draws (x : Reg) (b : Byte) : (s.setV x b).draws = s.draws := rfl
@[simp] theorem setV_status (x : Reg) (b : Byte) : (s.setV x b).status = s.status := rfl

/-- The register file after a write. -/
theorem setV_v (x : Reg) (b : Byte) : (s.setV x b).v = s.v.set x.val b x.isLt := rfl

@[simp] theorem getV_setV_same (x : Reg) (b : Byte) : (s.setV x b).getV x = b := by
  simp [setV, getV]

theorem getV_setV_ne {x y : Reg} (b : Byte) (h : y ≠ x) : (s.setV x b).getV y = s.getV y := by
  have h' : x.val ≠ y.val := fun e => h (Fin.ext e.symm)
  simp [setV, getV, h']

/-- Reading after a write, both cases at once. -/
theorem getV_setV (x y : Reg) (b : Byte) : (s.setV x b).getV y = if y = x then b else s.getV y := by
  by_cases h : y = x
  · subst h; simp
  · simp [h, getV_setV_ne]

/-- Two states with the same register file read the same registers. -/
theorem getV_eq_of_v {s t : State} (h : t.v = s.v) (x : Reg) : t.getV x = s.getV x := by
  simp [getV, h]

/-! ## `setVs` -/

@[simp] theorem setVs_i (k : Nat) (bytes : List Byte) : (s.setVs k bytes).i = s.i := by
  induction bytes generalizing s k with
  | nil => rfl
  | cons b bs ih => rw [setVs, ih]; split <;> rfl

@[simp] theorem setVs_pc (k : Nat) (bytes : List Byte) : (s.setVs k bytes).pc = s.pc := by
  induction bytes generalizing s k with
  | nil => rfl
  | cons b bs ih => rw [setVs, ih]; split <;> rfl

@[simp] theorem setVs_stack (k : Nat) (bytes : List Byte) : (s.setVs k bytes).stack = s.stack := by
  induction bytes generalizing s k with
  | nil => rfl
  | cons b bs ih => rw [setVs, ih]; split <;> rfl

@[simp] theorem setVs_depth (k : Nat) (bytes : List Byte) : (s.setVs k bytes).depth = s.depth := by
  induction bytes generalizing s k with
  | nil => rfl
  | cons b bs ih => rw [setVs, ih]; split <;> rfl

@[simp] theorem setVs_dt (k : Nat) (bytes : List Byte) : (s.setVs k bytes).dt = s.dt := by
  induction bytes generalizing s k with
  | nil => rfl
  | cons b bs ih => rw [setVs, ih]; split <;> rfl

@[simp] theorem setVs_st (k : Nat) (bytes : List Byte) : (s.setVs k bytes).st = s.st := by
  induction bytes generalizing s k with
  | nil => rfl
  | cons b bs ih => rw [setVs, ih]; split <;> rfl

@[simp] theorem setVs_displayDirty (k : Nat) (bytes : List Byte) : (s.setVs k bytes).displayDirty = s.displayDirty := by
  induction bytes generalizing s k with
  | nil => rfl
  | cons b bs ih => rw [setVs, ih]; split <;> rfl

@[simp] theorem setVs_audioTrigger (k : Nat) (bytes : List Byte) : (s.setVs k bytes).audioTrigger = s.audioTrigger := by
  induction bytes generalizing s k with
  | nil => rfl
  | cons b bs ih => rw [setVs, ih]; split <;> rfl

@[simp] theorem setVs_halt (k : Nat) (bytes : List Byte) : (s.setVs k bytes).halt = s.halt := by
  induction bytes generalizing s k with
  | nil => rfl
  | cons b bs ih => rw [setVs, ih]; split <;> rfl

@[simp] theorem setVs_mem (k : Nat) (bytes : List Byte) : (s.setVs k bytes).mem = s.mem := by
  induction bytes generalizing s k with
  | nil => rfl
  | cons b bs ih => rw [setVs, ih]; split <;> rfl

@[simp] theorem setVs_input (k : Nat) (bytes : List Byte) : (s.setVs k bytes).input = s.input := by
  induction bytes generalizing s k with
  | nil => rfl
  | cons b bs ih => rw [setVs, ih]; split <;> rfl

@[simp] theorem setVs_pending (k : Nat) (bytes : List Byte) : (s.setVs k bytes).pending = s.pending := by
  induction bytes generalizing s k with
  | nil => rfl
  | cons b bs ih => rw [setVs, ih]; split <;> rfl

@[simp] theorem setVs_draws (k : Nat) (bytes : List Byte) : (s.setVs k bytes).draws = s.draws := by
  induction bytes generalizing s k with
  | nil => rfl
  | cons b bs ih => rw [setVs, ih]; split <;> rfl

@[simp] theorem setVs_status (k : Nat) (bytes : List Byte) : (s.setVs k bytes).status = s.status := by
  induction bytes generalizing s k with
  | nil => rfl
  | cons b bs ih => rw [setVs, ih]; split <;> rfl

/-! ## `raise` -/

@[simp] theorem raise_v (c : Cause) : (s.raise c).v = s.v := rfl
@[simp] theorem raise_i (c : Cause) : (s.raise c).i = s.i := rfl
@[simp] theorem raise_pc (c : Cause) : (s.raise c).pc = s.pc := rfl
@[simp] theorem raise_stack (c : Cause) : (s.raise c).stack = s.stack := rfl
@[simp] theorem raise_depth (c : Cause) : (s.raise c).depth = s.depth := rfl
@[simp] theorem raise_dt (c : Cause) : (s.raise c).dt = s.dt := rfl
@[simp] theorem raise_st (c : Cause) : (s.raise c).st = s.st := rfl
@[simp] theorem raise_displayDirty (c : Cause) : (s.raise c).displayDirty = s.displayDirty := rfl
@[simp] theorem raise_audioTrigger (c : Cause) : (s.raise c).audioTrigger = s.audioTrigger := rfl
@[simp] theorem raise_mem (c : Cause) : (s.raise c).mem = s.mem := rfl
@[simp] theorem raise_input (c : Cause) : (s.raise c).input = s.input := rfl
@[simp] theorem raise_pending (c : Cause) : (s.raise c).pending = s.pending := rfl
@[simp] theorem raise_draws (c : Cause) : (s.raise c).draws = s.draws := rfl
@[simp] theorem raise_status (c : Cause) : (s.raise c).status = s.status := rfl
@[simp] theorem raise_halt (c : Cause) : (s.raise c).halt = some c := rfl

/-! ## `jump` -/

@[simp] theorem jump_v (w : Word) : (s.jump w).v = s.v := rfl
@[simp] theorem jump_i (w : Word) : (s.jump w).i = s.i := rfl
@[simp] theorem jump_stack (w : Word) : (s.jump w).stack = s.stack := rfl
@[simp] theorem jump_depth (w : Word) : (s.jump w).depth = s.depth := rfl
@[simp] theorem jump_dt (w : Word) : (s.jump w).dt = s.dt := rfl
@[simp] theorem jump_st (w : Word) : (s.jump w).st = s.st := rfl
@[simp] theorem jump_displayDirty (w : Word) : (s.jump w).displayDirty = s.displayDirty := rfl
@[simp] theorem jump_audioTrigger (w : Word) : (s.jump w).audioTrigger = s.audioTrigger := rfl
@[simp] theorem jump_halt (w : Word) : (s.jump w).halt = s.halt := rfl
@[simp] theorem jump_mem (w : Word) : (s.jump w).mem = s.mem := rfl
@[simp] theorem jump_input (w : Word) : (s.jump w).input = s.input := rfl
@[simp] theorem jump_pending (w : Word) : (s.jump w).pending = s.pending := rfl
@[simp] theorem jump_draws (w : Word) : (s.jump w).draws = s.draws := rfl
@[simp] theorem jump_status (w : Word) : (s.jump w).status = s.status := rfl
@[simp] theorem jump_pc (w : Word) : (s.jump w).pc = w := rfl

@[simp] theorem getV_jump (w : Word) (x : Reg) : (s.jump w).getV x = s.getV x := rfl
@[simp] theorem getV_raise (c : Cause) (x : Reg) : (s.raise c).getV x = s.getV x := rfl

/-- Advancing is a jump, so the lemmas about `jump` cover it. -/
@[simp] theorem advance_eq : s.advance = s.jump (s.pc + 2) := rfl

/-- A skip is a jump, so the lemmas about `jump` cover it. -/
@[simp] theorem skipIf_eq (taken : Bool) :
    s.skipIf taken = s.jump (if taken then s.pc + 4 else s.pc + 2) := rfl

/-! ## `clearEdges` -/

@[simp] theorem clearEdges_v : (s.clearEdges).v = s.v := rfl
@[simp] theorem clearEdges_i : (s.clearEdges).i = s.i := rfl
@[simp] theorem clearEdges_pc : (s.clearEdges).pc = s.pc := rfl
@[simp] theorem clearEdges_stack : (s.clearEdges).stack = s.stack := rfl
@[simp] theorem clearEdges_depth : (s.clearEdges).depth = s.depth := rfl
@[simp] theorem clearEdges_dt : (s.clearEdges).dt = s.dt := rfl
@[simp] theorem clearEdges_st : (s.clearEdges).st = s.st := rfl
@[simp] theorem clearEdges_halt : (s.clearEdges).halt = s.halt := rfl
@[simp] theorem clearEdges_mem : (s.clearEdges).mem = s.mem := rfl
@[simp] theorem clearEdges_input : (s.clearEdges).input = s.input := rfl
@[simp] theorem clearEdges_pending : (s.clearEdges).pending = s.pending := rfl
@[simp] theorem clearEdges_draws : (s.clearEdges).draws = s.draws := rfl
@[simp] theorem clearEdges_status : (s.clearEdges).status = s.status := rfl
@[simp] theorem clearEdges_displayDirty : (s.clearEdges).displayDirty = false := rfl
@[simp] theorem clearEdges_audioTrigger : (s.clearEdges).audioTrigger = false := rfl

/-! ## `beforeFetch` (phases 1 to 3) -/

@[simp] theorem beforeFetch_v : s.beforeFetch.v = s.v := rfl
@[simp] theorem beforeFetch_i : s.beforeFetch.i = s.i := rfl
@[simp] theorem beforeFetch_pc : s.beforeFetch.pc = s.pc := rfl
@[simp] theorem beforeFetch_stack : s.beforeFetch.stack = s.stack := rfl
@[simp] theorem beforeFetch_depth : s.beforeFetch.depth = s.depth := rfl
@[simp] theorem beforeFetch_halt : s.beforeFetch.halt = s.halt := rfl
@[simp] theorem beforeFetch_mem : s.beforeFetch.mem = s.mem := rfl
@[simp] theorem beforeFetch_input : s.beforeFetch.input = s.input := rfl
@[simp] theorem beforeFetch_pending : s.beforeFetch.pending = s.pending := rfl
@[simp] theorem beforeFetch_draws : s.beforeFetch.draws = s.draws := rfl
@[simp] theorem beforeFetch_status : s.beforeFetch.status = s.status := rfl

@[simp] theorem beforeFetch_displayDirty : s.beforeFetch.displayDirty = false := rfl

@[simp] theorem getV_beforeFetch (x : Reg) : s.beforeFetch.getV x = s.getV x := rfl

theorem beforeFetch_dt : s.beforeFetch.dt = if s.dt = 0 then 0 else s.dt - 1 := rfl

theorem beforeFetch_st : s.beforeFetch.st = if s.st = 0 then 0 else s.st - 1 := rfl

/-- AudioTrigger is set exactly when the sound timer goes from 1 to 0 (R83). -/
theorem beforeFetch_audioTrigger : s.beforeFetch.audioTrigger = (s.st == 1) := by
  simp [beforeFetch, tickDelay, tickSound]

/-! ## `endStep` -/

@[simp] theorem endStep_v (r : Status) : (s.endStep r).v = s.v := by
  unfold endStep nextInput; split <;> rfl
@[simp] theorem endStep_i (r : Status) : (s.endStep r).i = s.i := by
  unfold endStep nextInput; split <;> rfl
@[simp] theorem endStep_pc (r : Status) : (s.endStep r).pc = s.pc := by
  unfold endStep nextInput; split <;> rfl
@[simp] theorem endStep_stack (r : Status) : (s.endStep r).stack = s.stack := by
  unfold endStep nextInput; split <;> rfl
@[simp] theorem endStep_depth (r : Status) : (s.endStep r).depth = s.depth := by
  unfold endStep nextInput; split <;> rfl
@[simp] theorem endStep_dt (r : Status) : (s.endStep r).dt = s.dt := by
  unfold endStep nextInput; split <;> rfl
@[simp] theorem endStep_st (r : Status) : (s.endStep r).st = s.st := by
  unfold endStep nextInput; split <;> rfl
@[simp] theorem endStep_displayDirty (r : Status) : (s.endStep r).displayDirty = s.displayDirty := by
  unfold endStep nextInput; split <;> rfl
@[simp] theorem endStep_audioTrigger (r : Status) : (s.endStep r).audioTrigger = s.audioTrigger := by
  unfold endStep nextInput; split <;> rfl
@[simp] theorem endStep_halt (r : Status) : (s.endStep r).halt = s.halt := by
  unfold endStep nextInput; split <;> rfl
@[simp] theorem endStep_mem (r : Status) : (s.endStep r).mem = s.mem := by
  unfold endStep nextInput; split <;> rfl
@[simp] theorem endStep_status (r : Status) : (s.endStep r).status = r := by
  unfold endStep nextInput; split <;> rfl

@[simp] theorem getV_endStep (r : Status) (x : Reg) : (s.endStep r).getV x = s.getV x :=
  getV_eq_of_v (s.endStep_v r) x

/-- The inputs the host has pending are used in order. -/
theorem endStep_input_of_pending (r : Status) {inp : StepInput} {rest : List StepInput}
    (h : s.pending = inp :: rest) :
    (s.endStep r).input = inp ∧ (s.endStep r).pending = rest ∧ (s.endStep r).draws = s.draws := by
  simp [endStep, nextInput, h]

end Sys2Proof.Machine.State
end

