-- ==== Sys2Proof/Laws/Ops.lean ====
section
/-! SUPPORT. What each shared operation can do, said once: the call stack, checked loads and stores, the fetch, the key
a wait takes; and that every meaning answers a next state. -/

namespace Sys2Proof.Machine

/-! ## The range check (R49) -/

theorem inRange_iff (a n : Nat) : inRange a n = true ↔ n = 0 ∨ a + n ≤ 0x1000 := by
  simp [inRange]

theorem inRange_false_iff (a n : Nat) : inRange a n = false ↔ 0 < n ∧ 0x1000 < a + n := by
  rw [← Bool.not_eq_true, inRange_iff]; omega

namespace State

variable {s t : State}

/-! ## Loads and stores -/

theorem load_of_inRange {a n : Nat} (h : inRange a n = true) : s.load a n = some (s.mem.readBytes a n) := by
  simp [load, h]

theorem load_of_not_inRange {a n : Nat} (h : inRange a n = false) : s.load a n = none := by
  simp [load, h]

/-- A checked store answers none exactly out of range. -/
theorem store_of_not_inRange {a : Nat} {bytes : List Byte} (h : inRange a bytes.length = false) :
    s.store a bytes = none := by
  simp [store, h]

/-- The state a store in range leaves. -/
theorem store_of_inRange {a : Nat} {bytes : List Byte} (h : inRange a bytes.length = true) :
    s.store a bytes = some { s with
      mem := s.mem.writeBytes a bytes
      displayDirty := s.displayDirty || (List.range bytes.length).any fun k => inFramebuffer (a + k) } := by
  simp [store, h]

/-- DisplayDirty after a store: set before, or an address stored to lies in the framebuffer (R164). -/
theorem store_displayDirty {a : Nat} {bytes : List Byte} (h : s.store a bytes = some t) :
    t.displayDirty = true ↔
      s.displayDirty = true ∨ ∃ k, k < bytes.length ∧ 0x0A0 ≤ a + k ∧ a + k ≤ 0x19F := by
  unfold store at h
  split at h
  · cases h
    simp only [inFramebuffer, Bool.or_eq_true, List.any_eq_true, List.mem_range, Bool.and_eq_true, decide_eq_true_eq]
    exact or_congr_right (exists_congr fun k => and_congr_right fun _ => by simp; omega)
  · cases h

/-- The registers a dump stores, by number. -/
theorem length_getVs (x : Reg) : (s.getVs x).length = x.val + 1 := by
  simp [getVs]

theorem getElem_getVs (x k : Reg) (h : k.val ≤ x.val) :
    (s.getVs x)[k.val]'(by rw [length_getVs]; omega) = s.getV k := by
  simp [getVs, getV]

@[simp] theorem length_bcdDigits (b : Byte) : (bcdDigits b).length = 3 := rfl

/-- The registers after a load of several. -/
theorem getV_setVs (bytes : List Byte) (k : Nat) (r : Reg) :
    (s.setVs k bytes).getV r =
      if h : k ≤ r.val ∧ r.val < k + bytes.length then bytes[r.val - k]'(by omega) else s.getV r := by
  induction bytes generalizing s k with
  | nil => rw [dif_neg (by simp)]; rfl
  | cons b bs ih =>
    rw [setVs, ih]
    by_cases hk : k < 16
    · by_cases hr : r.val = k
      · have hr' : r = ⟨k, hk⟩ := Fin.ext hr
        subst hr'
        simp [hk]
      · have hne : r ≠ ⟨k, hk⟩ := fun e => hr (by simp [e])
        by_cases hin : k + 1 ≤ r.val ∧ r.val < k + 1 + bs.length
        · have hin' : k ≤ r.val ∧ r.val < k + (b :: bs).length := by simp; omega
          rw [dif_pos hin, dif_pos hin']
          have e : r.val - k = r.val - (k + 1) + 1 := by omega
          simp [e]
        · have hin' : ¬ (k ≤ r.val ∧ r.val < k + (b :: bs).length) := by simp; omega
          rw [dif_neg hin, dif_neg hin']
          simp [hk, getV_setV_ne _ _ hne]
    · have h1 : ¬ (k + 1 ≤ r.val ∧ r.val < k + 1 + bs.length) := by have := r.isLt; omega
      have h2 : ¬ (k ≤ r.val ∧ r.val < k + (b :: bs).length) := by have := r.isLt; omega
      rw [dif_neg h1, dif_neg h2]
      simp [hk]

/-! ## The call stack -/

theorem sp_eq (s : State) : s.sp = (s.depth.val : Int) - 1 := rfl

theorem sp_range (s : State) : -1 ≤ s.sp ∧ s.sp ≤ 15 := by
  have := s.depth.isLt
  rw [sp_eq]; omega

theorem push_full (r : Word) (h : s.sp = 15) : s.push r = none := by
  rw [sp_eq] at h
  simp [push]; omega

/-- A push with room: the entry above the top, and SP one higher. -/
theorem push_room (r : Word) (h : s.sp < 15) :
    ∃ (hk : s.depth.val < 16) (hd : s.depth.val + 1 < 17), s.push r =
      some { s with stack := s.stack.set s.depth.val r hk, depth := ⟨s.depth.val + 1, hd⟩ } := by
  rw [sp_eq] at h
  have hk : s.depth.val < 16 := by omega
  exact ⟨hk, by omega, by simp [push, hk]⟩

theorem pop_empty (h : s.sp = -1) : s.pop = none := by
  rw [sp_eq] at h
  have : s.depth = ⟨0, by omega⟩ := Fin.ext (by simp; omega)
  simp [pop, this]

/-- A pop: the top entry, and SP one lower. -/
theorem pop_top (k : Fin 16) (h : s.sp = (k.val : Int)) :
    s.pop = some (s.stack[k], { s with depth := ⟨k.val, by omega⟩ }) := by
  rw [sp_eq] at h
  have : s.depth = ⟨k.val + 1, by omega⟩ := Fin.ext (by simp; omega)
  simp [pop, this]

/-! ## The fetch -/

theorem wordOfBytes_toNat (hi lo : Byte) : (wordOfBytes hi lo).toNat = hi.toNat * 256 + lo.toNat := by
  have := lo.isLt
  rw [wordOfBytes, BitVec.toNat_append, ← Nat.shiftLeft_add_eq_or_of_lt lo.isLt, Nat.shiftLeft_eq]

theorem fetch_of_le (h : s.pc.toNat ≤ 0xFFE) :
    s.fetch = some (wordOfBytes (s.mem.read s.pc.toNat) (s.mem.read (s.pc.toNat + 1))) := by
  have hr : inRange s.pc.toNat 2 = true := by rw [inRange_iff]; omega
  simp [fetch, load_of_inRange hr, Memory.readBytes, List.range_succ]

theorem fetch_of_gt (h : 0xFFE < s.pc.toNat) : s.fetch = none := by
  have hr : inRange s.pc.toNat 2 = false := by rw [inRange_false_iff]; omega
  simp [fetch, load_of_not_inRange hr]

theorem pc_le_of_fetch {w : Word} (h : s.fetch = some w) : s.pc.toNat ≤ 0xFFE := by
  by_contra hc
  rw [fetch_of_gt (by omega)] at h
  cases h

/-- The fetch depends on PC and memory alone. -/
theorem fetch_congr (hp : t.pc = s.pc) (hm : t.mem = s.mem) : t.fetch = s.fetch := by
  simp [fetch, load, hp, hm]

@[simp] theorem fetch_beforeFetch (s : State) : s.beforeFetch.fetch = s.fetch := fetch_congr rfl rfl

end State

/-! ## The key a wait takes (R172) -/

theorem lowestKey_none {keys : BitVec 16} : lowestKey keys = none ↔ keys = 0 := by
  constructor
  · intro h
    refine BitVec.eq_of_getLsbD_eq fun k hk => ?_
    have := List.find?_eq_none.mp h k (by simpa using hk)
    simpa using this
  · rintro rfl
    simp [lowestKey]

theorem lowestKey_some {keys : BitVec 16} {k : Nat} (h : lowestKey keys = some k) :
    k < 16 ∧ keys.getLsbD k = true ∧ ∀ j, j < k → keys.getLsbD j = false := by
  unfold lowestKey at h
  rw [List.find?_eq_some_iff_append] at h
  obtain ⟨hk, as, bs, e, hb⟩ := h
  have hlen := congrArg List.length e
  simp only [List.length_range, List.length_append, List.length_cons] at hlen
  have hget : ∀ j, (hj : j < as.length) → as[j] = j := by
    intro j hj
    have h1 : (List.range 16)[j]'(by simp; omega) = j := by simp
    simp only [e] at h1
    rwa [List.getElem_append_left hj] at h1
  have hkl : k = as.length := by
    have h1 : (List.range 16)[as.length]'(by simp; omega) = as.length := by simp
    simp only [e] at h1
    simpa using h1
  refine ⟨by omega, hk, fun j hj => ?_⟩
  have hj' : j < as.length := by omega
  have := hb as[j] (List.getElem_mem hj')
  rw [hget j hj'] at this
  simpa using this

/-! ## Every meaning answers a next state -/

theorem exec_next (i : Instr) (s : State) : ∃ t, exec i s = .next t := by
  cases i
  case ret => simp only [exec, execRet]; split <;> exact ⟨_, rfl⟩
  case call => simp only [exec, execCall]; split <;> exact ⟨_, rfl⟩
  case ldB => simp only [exec, execLdB]; split <;> exact ⟨_, rfl⟩
  case storeRegs => simp only [exec, execStoreRegs]; split <;> exact ⟨_, rfl⟩
  case loadRegs => simp only [exec, execLoadRegs]; split <;> exact ⟨_, rfl⟩
  case drw => simp only [exec, execDrw]; split <;> exact ⟨_, rfl⟩
  case ldVxK => simp only [exec, execLdVxK]; split <;> exact ⟨_, rfl⟩
  all_goals exact ⟨_, rfl⟩

end Sys2Proof.Machine
end

