-- ==== Sys2Proof/Laws/Exec.lean ====
section
/-! SUPPORT. Everything one instruction can do, said once: it raises exactly the fault its rule names (`Raises`), with
no other effect, or it leaves Halt alone (`exec_cases`); and, item by item, which instructions change it. -/

namespace Sys2Proof.Machine

variable {s t : State}

/-! ## Inverting the shared operations -/

theorem State.store_some {a : Nat} {bytes : List Byte} (h : s.store a bytes = some t) :
    inRange a bytes.length = true ∧ t = { s with
      mem := s.mem.writeBytes a bytes
      displayDirty := s.displayDirty || (List.range bytes.length).any fun k => inFramebuffer (a + k) } := by
  unfold State.store at h
  split at h
  · next hr => exact ⟨hr, (Option.some.inj h).symm⟩
  · cases h

theorem State.store_none {a : Nat} {bytes : List Byte} (h : s.store a bytes = none) :
    inRange a bytes.length = false := by
  unfold State.store at h
  split at h
  · cases h
  · next hr => simpa using hr

theorem State.load_some {a n : Nat} {bytes : List Byte} (h : s.load a n = some bytes) :
    inRange a n = true ∧ bytes = s.mem.readBytes a n := by
  unfold State.load at h
  split at h
  · next hr => exact ⟨hr, (Option.some.inj h).symm⟩
  · cases h

theorem State.load_none {a n : Nat} (h : s.load a n = none) : inRange a n = false := by
  unfold State.load at h
  split at h
  · cases h
  · next hr => simpa using hr

theorem State.push_none {r : Word} (h : s.push r = none) : s.sp = 15 := by
  by_contra hc
  have := s.sp_range
  obtain ⟨_, _, e⟩ := State.push_room (s := s) r (by omega)
  rw [e] at h
  cases h

theorem State.push_some {r : Word} (h : s.push r = some t) :
    ∃ (hk : s.depth.val < 16) (hd : s.depth.val + 1 < 17),
      t = { s with stack := s.stack.set s.depth.val r hk, depth := ⟨s.depth.val + 1, hd⟩ } := by
  by_cases hc : s.sp = 15
  · rw [State.push_full r hc] at h
    cases h
  · have := s.sp_range
    obtain ⟨hk, hd, e⟩ := State.push_room (s := s) r (by omega)
    rw [e] at h
    exact ⟨hk, hd, (Option.some.inj h).symm⟩

theorem State.pop_none (h : s.pop = none) : s.sp = -1 := by
  by_contra hc
  have := s.sp_range
  have e := State.pop_top (s := s) ⟨s.sp.toNat, by omega⟩ (by simp; omega)
  rw [e] at h
  cases h

theorem State.pop_some {r : Word} (h : s.pop = some (r, t)) :
    ∃ k : Fin 16, s.sp = (k.val : Int) ∧ r = s.stack[k] ∧ t = { s with depth := ⟨k.val, by omega⟩ } := by
  by_cases hc : s.sp = -1
  · rw [State.pop_empty hc] at h
    cases h
  · have := s.sp_range
    have hk : s.sp = ((⟨s.sp.toNat, by omega⟩ : Fin 16).val : Int) := by simp; omega
    rw [State.pop_top _ hk] at h
    cases h
    exact ⟨_, hk, rfl, rfl⟩

/-- CLS as a store of 256 bytes, kept as a variable so that no proof unfolds them. -/
theorem exec_cls (s : State) :
    ∃ bytes : List Byte, bytes.length = 256 ∧ (∀ b ∈ bytes, b = 0) ∧
      exec .cls s = .next ({ s with mem := s.mem.writeBytes 0x0A0 bytes, displayDirty := true }.jump (s.pc + 2)) :=
  ⟨List.replicate 256 0, List.length_replicate, fun _ hb => List.eq_of_mem_replicate hb, rfl⟩

/-! ## Which instruction raises which fault (R190, R193) -/

/-- Instruction `i` at `s` raises the fault `c`. -/
def Raises (i : Instr) (s : State) (c : Cause) : Prop :=
  match i, c with
  | .call _, .stackOverflow => s.sp = 15
  | .ret, .stackUnderflow => s.sp = -1
  | .ldB _, .addressFault => 0xFFF < s.i.toNat + 2
  | .storeRegs x, .addressFault => 0xFFF < s.i.toNat + x.val
  | .loadRegs x, .addressFault => 0xFFF < s.i.toNat + x.val
  | .drw _ _ n, .addressFault => 0 < n ∧ 0xFFF < s.i.toNat + n - 1
  | _, _ => False

/-- An instruction that answers a next state has raised a fault its rule names, with no other effect, or has raised
none and has left Halt as it was. -/
theorem exec_cases {i : Instr} (h : exec i s = .next t) :
    (∃ c, Raises i s c ∧ t = s.raise c) ∨ ((∀ c, ¬ Raises i s c) ∧ t.halt = s.halt) := by
  cases i
  case ret =>
    simp only [exec, execRet] at h
    split at h
    · next hp => cases h; exact .inl ⟨.stackUnderflow, State.pop_none hp, rfl⟩
    · next hp =>
      obtain ⟨k, hk, rfl, rfl⟩ := State.pop_some hp
      cases h
      exact .inr ⟨fun c hc => by cases c <;> simp only [Raises] at hc; omega, rfl⟩
  case call =>
    simp only [exec, execCall] at h
    split at h
    · next hp => cases h; exact .inl ⟨.stackOverflow, State.push_none hp, rfl⟩
    · next hp =>
      obtain ⟨hk, hd, rfl⟩ := State.push_some hp
      cases h
      refine .inr ⟨fun c hc => ?_, rfl⟩
      cases c <;> simp only [Raises] at hc
      rw [State.sp_eq] at hc
      omega
  case ldB =>
    simp only [exec, execLdB] at h
    split at h
    · next hp =>
      cases h
      have := (inRange_false_iff _ _).mp (State.store_none hp)
      exact .inl ⟨.addressFault, by simp only [Raises, State.length_bcdDigits] at *; omega, rfl⟩
    · next hp =>
      obtain ⟨hr, rfl⟩ := State.store_some hp
      cases h
      have := (inRange_iff _ _).mp hr
      refine .inr ⟨fun c hc => ?_, rfl⟩
      cases c <;> simp only [Raises, State.length_bcdDigits] at *
      omega
  case storeRegs x =>
    simp only [exec, execStoreRegs] at h
    split at h
    · next hp =>
      cases h
      have := (inRange_false_iff _ _).mp (State.store_none hp)
      exact .inl ⟨.addressFault, by simp only [Raises, State.length_getVs] at *; omega, rfl⟩
    · next hp =>
      obtain ⟨hr, rfl⟩ := State.store_some hp
      cases h
      have := (inRange_iff _ _).mp hr
      refine .inr ⟨fun c hc => ?_, rfl⟩
      cases c <;> simp only [Raises, State.length_getVs] at *
      omega
  case loadRegs x =>
    simp only [exec, execLoadRegs] at h
    split at h
    · next hp =>
      cases h
      have := (inRange_false_iff _ _).mp (State.load_none hp)
      exact .inl ⟨.addressFault, by simp only [Raises] at *; omega, rfl⟩
    · next hp =>
      obtain ⟨hr, rfl⟩ := State.load_some hp
      cases h
      have := (inRange_iff _ _).mp hr
      refine .inr ⟨fun c hc => ?_, by simp⟩
      cases c <;> simp only [Raises] at *
      omega
  case drw x y n =>
    simp only [exec, execDrw] at h
    split at h
    · next hp =>
      cases h
      have := (inRange_false_iff _ _).mp (State.load_none hp)
      exact .inl ⟨.addressFault, by simp only [Raises] at *; omega, rfl⟩
    · next hp =>
      obtain ⟨hr, rfl⟩ := State.load_some hp
      cases h
      have := (inRange_iff _ _).mp hr
      refine .inr ⟨fun c hc => ?_, rfl⟩
      cases c <;> simp only [Raises] at *
      omega
  case ldVxK =>
    simp only [exec, execLdVxK] at h
    split at h <;> cases h <;> exact .inr ⟨fun c hc => by cases c <;> exact hc, rfl⟩
  all_goals
    cases h
    exact .inr ⟨fun c hc => by cases c <;> exact hc, rfl⟩

/-! ## Which instruction writes which item -/

/-- The items instruction `i` may write at `s` when it raises no fault. -/
def MayWrite (i : Instr) (s : State) (p : Item) : Prop :=
  match i with
  | .jp _ | .jpV0 _ | .seImm _ _ | .sneImm _ _ | .seReg _ _ | .sneReg _ _ | .skp _ | .sknp _ => p = .pc
  | .ret => p = .pc ∨ p = .sp
  | .call _ => p = .pc ∨ p = .sp ∨ ∃ k : Fin 16, s.sp + 1 = (k.val : Int) ∧ p = .stack k
  | .ldImm x _ | .addImm x _ | .ldReg x _ | .orReg x _ | .andReg x _ | .xorReg x _ | .rnd x _ | .ldVxDt x
  | .ldVxK x => p = .pc ∨ p = .v x
  | .addReg x _ | .subReg x _ | .shr x _ | .subnReg x _ | .shl x _ => p = .pc ∨ p = .v x ∨ p = .v 15
  | .ldI _ | .addI _ | .ldF _ => p = .pc ∨ p = .i
  | .ldDtVx _ => p = .pc ∨ p = .dt
  | .ldStVx _ => p = .pc ∨ p = .st
  | .cls => p = .pc ∨ p = .displayDirty ∨ ∃ a, p = .mem a ∧ 0x0A0 ≤ a ∧ a ≤ 0x19F
  | .drw _ _ _ => p = .pc ∨ p = .displayDirty ∨ p = .v 15 ∨ ∃ a, p = .mem a ∧ 0x0A0 ≤ a ∧ a ≤ 0x19F
  | .ldB _ => p = .pc ∨ p = .displayDirty ∨ ∃ k, k < 3 ∧ p = .mem (s.i.toNat + k)
  | .storeRegs x => p = .pc ∨ p = .displayDirty ∨ ∃ k, k ≤ x.val ∧ p = .mem (s.i.toNat + k)
  | .loadRegs x => p = .pc ∨ ∃ k : Reg, k ≤ x ∧ p = .v k

theorem raise_frame (s : State) (c : Cause) {p : Item} (hp : p ≠ .halt) : p.same s (s.raise c) := by
  cases p <;> first | exact absurd rfl hp | rfl

theorem jump_frame (s : State) (w : Word) {p : Item} (hp : p ≠ .pc) : p.same s (s.jump w) := by
  cases p <;> first | exact absurd rfl hp | rfl

theorem setV_jump_frame (s : State) (x : Reg) (b : Byte) (w : Word) {p : Item} (hp : p ≠ .pc) (hv : p ≠ .v x) :
    p.same s ((s.setV x b).jump w) := by
  cases p
  case pc => exact absurd rfl hp
  case v k => exact State.getV_setV_ne s b fun e => hv (by rw [e])
  all_goals rfl

theorem setVAndFlag_jump_frame (s : State) (x : Reg) (b f : Byte) (w : Word) {p : Item} (hp : p ≠ .pc)
    (hv : p ≠ .v x) (hf : p ≠ .v 15) : p.same s ((s.setVAndFlag x b f).jump w) := by
  cases p
  case pc => exact absurd rfl hp
  case v k =>
    refine (State.getV_setV_ne _ f fun e => hf (by rw [e])).trans ?_
    exact State.getV_setV_ne s b fun e => hv (by rw [e])
  all_goals rfl

theorem store_jump_frame (s : State) (a : Nat) (bytes : List Byte) (dirty : Bool) (w : Word) {p : Item}
    (hp : p ≠ .pc) (hd : p ≠ .displayDirty) (hm : ∀ k, k < bytes.length → p ≠ .mem (a + k)) :
    p.same s ({ s with mem := s.mem.writeBytes a bytes, displayDirty := dirty }.jump w) := by
  cases p
  case pc => exact absurd rfl hp
  case displayDirty => exact absurd rfl hd
  case mem x =>
    refine Memory.read_writeBytes_outside _ _ ?_
    by_contra hc
    exact hm (x - a) (by omega) (by congr 1; omega)
  all_goals rfl

/-- The frame of every instruction: an item it may not write, other than Halt, reads as before. -/
theorem exec_frame {i : Instr} (h : exec i s = .next t) {p : Item} (hp : ¬ MayWrite i s p) (hh : p ≠ .halt) :
    p.same s t := by
  cases i <;> simp only [MayWrite, not_or, not_exists, not_and] at hp
  case ret =>
    simp only [exec, execRet] at h
    split at h
    · cases h; exact raise_frame s _ hh
    · next hq =>
      obtain ⟨k, hk, rfl, rfl⟩ := State.pop_some hq
      cases h
      cases p <;> first | exact absurd rfl hp.1 | exact absurd rfl hp.2 | rfl
  case call =>
    simp only [exec, execCall] at h
    split at h
    · cases h; exact raise_frame s _ hh
    · next hq =>
      obtain ⟨hk, hd, rfl⟩ := State.push_some hq
      cases h
      cases p
      case stack k =>
        have hne : s.depth.val ≠ k.val := fun e => hp.2.2 k (by rw [State.sp_eq]; omega) rfl
        simp [Item.same, hne]
      all_goals first | exact absurd rfl hp.1 | exact absurd rfl hp.2.1 | rfl
  case ldB =>
    simp only [exec, execLdB] at h
    split at h
    · cases h; exact raise_frame s _ hh
    · next hq =>
      obtain ⟨hr, rfl⟩ := State.store_some hq
      cases h
      exact store_jump_frame s _ _ _ _ hp.1 hp.2.1 hp.2.2
  case storeRegs x =>
    simp only [exec, execStoreRegs] at h
    split at h
    · cases h; exact raise_frame s _ hh
    · next hq =>
      obtain ⟨hr, rfl⟩ := State.store_some hq
      cases h
      exact store_jump_frame s _ _ _ _ hp.1 hp.2.1 fun k hk =>
        hp.2.2 k (by rw [State.length_getVs] at hk; omega)
  case loadRegs x =>
    simp only [exec, execLoadRegs] at h
    split at h
    · cases h; exact raise_frame s _ hh
    · next hq =>
      obtain ⟨hr, rfl⟩ := State.load_some hq
      cases h
      cases p
      case v k =>
        have hk : ¬ k ≤ x := fun e => hp.2 k e rfl
        simp only [Item.same, State.advance_eq, State.getV_jump]
        rw [State.getV_setVs, dif_neg]
        rw [Memory.length_readBytes]
        intro hc
        exact hk (Fin.le_def.mpr (by omega))
      all_goals first | exact absurd rfl hp.1 | simp [Item.same, State.sp_eq]
  case drw x y n =>
    simp only [exec, execDrw] at h
    split at h
    · cases h; exact raise_frame s _ hh
    · next hq =>
      obtain ⟨hr, rfl⟩ := State.load_some hq
      cases h
      cases p
      case v k => exact State.getV_setV_ne _ _ fun e => hp.2.2.1 (by rw [e])
      case mem a =>
        refine Memory.read_drawPixels _ _ _ fun q hq e => ?_
        have hb := spritePixels_bounds _ hq
        refine hp.2.2.2 a rfl ?_ ?_ <;> (rw [e]; simp only [pixelAddr, Config.fbBase]; omega)
      all_goals first | exact absurd rfl hp.1 | exact absurd rfl hp.2.1 | rfl
  case cls =>
    obtain ⟨bytes, hl, -, e⟩ := exec_cls s
    rw [e] at h
    cases h
    refine store_jump_frame s _ _ _ _ hp.1 hp.2.1 fun k hk e => ?_
    exact hp.2.2 _ e (by omega) (by omega)
  case ldVxK x =>
    simp only [exec, execLdVxK] at h
    split at h
    · cases h; cases p <;> rfl
    · cases h; exact setV_jump_frame s _ _ _ hp.1 hp.2
  case jp => cases h; exact jump_frame s _ hp
  case jpV0 => cases h; exact jump_frame s _ hp
  case seImm => cases h; exact jump_frame s _ hp
  case sneImm => cases h; exact jump_frame s _ hp
  case seReg => cases h; exact jump_frame s _ hp
  case sneReg => cases h; exact jump_frame s _ hp
  case skp => cases h; exact jump_frame s _ hp
  case sknp => cases h; exact jump_frame s _ hp
  case addReg => cases h; exact setVAndFlag_jump_frame s _ _ _ _ hp.1 hp.2.1 hp.2.2
  case subReg => cases h; exact setVAndFlag_jump_frame s _ _ _ _ hp.1 hp.2.1 hp.2.2
  case shr => cases h; exact setVAndFlag_jump_frame s _ _ _ _ hp.1 hp.2.1 hp.2.2
  case subnReg => cases h; exact setVAndFlag_jump_frame s _ _ _ _ hp.1 hp.2.1 hp.2.2
  case shl => cases h; exact setVAndFlag_jump_frame s _ _ _ _ hp.1 hp.2.1 hp.2.2
  case ldI | addI | ldF | ldDtVx | ldStVx =>
    cases h
    cases p <;> first | exact absurd rfl hp.1 | exact absurd rfl hp.2 | rfl
  all_goals
    cases h
    exact setV_jump_frame s _ _ _ hp.1 hp.2

/-! ## DisplayDirty and the canonical form -/

/-- DisplayDirty after an instruction that raises no fault: set before, or set by an instruction that stores to the
framebuffer (R164). -/
theorem exec_displayDirty {i : Instr} (h : exec i s = .next t) (hn : ∀ c, ¬ Raises i s c) :
    t.displayDirty = true ↔ s.displayDirty = true ∨
      match i with
      | .cls | .drw _ _ _ => True
      | .ldB _ => ∃ k, k < 3 ∧ 0x0A0 ≤ s.i.toNat + k ∧ s.i.toNat + k ≤ 0x19F
      | .storeRegs x => ∃ k, k ≤ x.val ∧ 0x0A0 ≤ s.i.toNat + k ∧ s.i.toNat + k ≤ 0x19F
      | _ => False := by
  cases i
  case cls =>
    obtain ⟨bytes, -, -, e⟩ := exec_cls s
    rw [e] at h
    cases h
    simp
  case drw =>
    simp only [exec, execDrw] at h
    split at h
    · next hq =>
      have := (inRange_false_iff _ _).mp (State.load_none hq)
      exact absurd (show Raises _ s .addressFault from by simp only [Raises]; omega) (hn _)
    · cases h; simp
  case ldB =>
    simp only [exec, execLdB] at h
    split at h
    · next hq =>
      have := (inRange_false_iff _ _).mp (State.store_none hq)
      rw [State.length_bcdDigits] at this
      exact absurd (show Raises _ s .addressFault from by simp only [Raises]; omega) (hn _)
    · next hq =>
      have := State.store_displayDirty hq
      rw [State.length_bcdDigits] at this
      cases h
      exact this
  case storeRegs x =>
    simp only [exec, execStoreRegs] at h
    split at h
    · next hq =>
      have := (inRange_false_iff _ _).mp (State.store_none hq)
      rw [State.length_getVs] at this
      exact absurd (show Raises _ s .addressFault from by simp only [Raises]; omega) (hn _)
    · next hq =>
      have := State.store_displayDirty hq
      rw [State.length_getVs] at this
      cases h
      refine this.trans (or_congr_right (exists_congr fun k => and_congr_left fun _ => ?_))
      omega
  all_goals
    have e := exec_frame h (p := .displayDirty) (by simp [MayWrite]) (by simp)
    simp only [Item.same] at e
    simp [e]

/-- Every instruction keeps the canonical form of memory. -/
theorem exec_mem_wf {i : Instr} (h : exec i s = .next t) (w : s.mem.wf = true) : t.mem.wf = true := by
  cases i
  case cls =>
    obtain ⟨bytes, hl, -, e⟩ := exec_cls s
    rw [e] at h
    cases h
    exact Memory.wf_writeBytes w (.inr (by simp only [Config.memSize]; omega))
  case drw =>
    simp only [exec, execDrw] at h
    split at h
    · cases h; exact w
    · cases h
      exact Memory.wf_drawPixels _ _ w fun p hp => spritePixels_bounds _ hp
  case ldB =>
    simp only [exec, execLdB] at h
    split at h
    · cases h; exact w
    · next hq =>
      obtain ⟨hr, rfl⟩ := State.store_some hq
      cases h
      exact Memory.wf_writeBytes w (.inr (by simpa [bcdDigits] using (inRange_iff _ _).mp hr))
  case storeRegs x =>
    simp only [exec, execStoreRegs] at h
    split at h
    · cases h; exact w
    · next hq =>
      obtain ⟨hr, rfl⟩ := State.store_some hq
      cases h
      have := (inRange_iff _ _).mp hr
      rw [State.length_getVs] at this
      exact Memory.wf_writeBytes w (.inr (by rw [State.length_getVs]; simp; omega))
  case ret =>
    simp only [exec, execRet] at h
    split at h
    · cases h; exact w
    · next hq =>
      obtain ⟨k, hk, rfl, rfl⟩ := State.pop_some hq
      cases h; exact w
  case call =>
    simp only [exec, execCall] at h
    split at h
    · cases h; exact w
    · next hq =>
      obtain ⟨hk, hd, rfl⟩ := State.push_some hq
      cases h; exact w
  case loadRegs =>
    simp only [exec, execLoadRegs] at h
    split at h <;> cases h <;> simpa using w
  case ldVxK =>
    simp only [exec, execLdVxK] at h
    split at h <;> cases h <;> exact w
  all_goals
    cases h
    exact w

end Sys2Proof.Machine
end

