-- ==== Sys2Proof/Laws/PerInstr.lean ====
section
/-! SUPPORT. Per-instruction laws. Family `FixedBits`: the word of an instruction has its row's fixed bits
(spec/30_encoding.md R65), `encode i &&& mask = match`. -/

namespace Sys2Proof.Laws.FixedBits

/-- The mask column of R65. -/
def mask : Instr → Word
  | .cls | .ret => 0xFFFF
  | .jp _ | .call _ | .seImm _ _ | .sneImm _ _ | .ldImm _ _ | .addImm _ _ | .ldI _ | .jpV0 _ | .rnd _ _
  | .drw _ _ _ => 0xF000
  | .seReg _ _ | .ldReg _ _ | .orReg _ _ | .andReg _ _ | .xorReg _ _ | .addReg _ _ | .subReg _ _ | .shr _ _
  | .subnReg _ _ | .shl _ _ | .sneReg _ _ => 0xF00F
  | .skp _ | .sknp _ | .ldVxDt _ | .ldVxK _ | .ldDtVx _ | .ldStVx _ | .addI _ | .ldF _ | .ldB _ | .storeRegs _
  | .loadRegs _ => 0xF0FF

/-- The match column of R65. -/
def fixed : Instr → Word
  | .cls => 0x00E0 | .ret => 0x00EE | .jp _ => 0x1000 | .call _ => 0x2000 | .seImm _ _ => 0x3000
  | .sneImm _ _ => 0x4000 | .seReg _ _ => 0x5000 | .ldImm _ _ => 0x6000 | .addImm _ _ => 0x7000
  | .ldReg _ _ => 0x8000 | .orReg _ _ => 0x8001 | .andReg _ _ => 0x8002 | .xorReg _ _ => 0x8003
  | .addReg _ _ => 0x8004 | .subReg _ _ => 0x8005 | .shr _ _ => 0x8006 | .subnReg _ _ => 0x8007
  | .shl _ _ => 0x800E | .sneReg _ _ => 0x9000 | .ldI _ => 0xA000 | .jpV0 _ => 0xB000 | .rnd _ _ => 0xC000
  | .drw _ _ _ => 0xD000 | .skp _ => 0xE09E | .sknp _ => 0xE0A1 | .ldVxDt _ => 0xF007 | .ldVxK _ => 0xF00A
  | .ldDtVx _ => 0xF015 | .ldStVx _ => 0xF018 | .addI _ => 0xF01E | .ldF _ => 0xF029 | .ldB _ => 0xF033
  | .storeRegs _ => 0xF055 | .loadRegs _ => 0xF065

/-- The family's statement. -/
def Statement (i : Instr) : Prop := encode i &&& mask i = fixed i

theorem cls : Statement .cls := rfl
theorem ret : Statement .ret := rfl
theorem jp (nnn : Addr12) : Statement (.jp nnn) := wordNNN_mask _ _
theorem call (nnn : Addr12) : Statement (.call nnn) := wordNNN_mask _ _
theorem seImm (x : Reg) (kk : Byte) : Statement (.seImm x kk) := wordXKK_mask_o _ _ _
theorem sneImm (x : Reg) (kk : Byte) : Statement (.sneImm x kk) := wordXKK_mask_o _ _ _
theorem seReg (x y : Reg) : Statement (.seReg x y) := wordXYN_mask _ _ _ _
theorem ldImm (x : Reg) (kk : Byte) : Statement (.ldImm x kk) := wordXKK_mask_o _ _ _
theorem addImm (x : Reg) (kk : Byte) : Statement (.addImm x kk) := wordXKK_mask_o _ _ _
theorem ldReg (x y : Reg) : Statement (.ldReg x y) := wordXYN_mask _ _ _ _
theorem orReg (x y : Reg) : Statement (.orReg x y) := wordXYN_mask _ _ _ _
theorem andReg (x y : Reg) : Statement (.andReg x y) := wordXYN_mask _ _ _ _
theorem xorReg (x y : Reg) : Statement (.xorReg x y) := wordXYN_mask _ _ _ _
theorem addReg (x y : Reg) : Statement (.addReg x y) := wordXYN_mask _ _ _ _
theorem subReg (x y : Reg) : Statement (.subReg x y) := wordXYN_mask _ _ _ _
theorem shr (x y : Reg) : Statement (.shr x y) := wordXYN_mask _ _ _ _
theorem subnReg (x y : Reg) : Statement (.subnReg x y) := wordXYN_mask _ _ _ _
theorem shl (x y : Reg) : Statement (.shl x y) := wordXYN_mask _ _ _ _
theorem sneReg (x y : Reg) : Statement (.sneReg x y) := wordXYN_mask _ _ _ _
theorem ldI (nnn : Addr12) : Statement (.ldI nnn) := wordNNN_mask _ _
theorem jpV0 (nnn : Addr12) : Statement (.jpV0 nnn) := wordNNN_mask _ _
theorem rnd (x : Reg) (kk : Byte) : Statement (.rnd x kk) := wordXKK_mask_o _ _ _
theorem drw (x y : Reg) (n : Nat) : Statement (.drw x y n) := wordXYN_mask_o _ _ _ _
theorem skp (x : Reg) : Statement (.skp x) := wordXKK_mask _ _ _
theorem sknp (x : Reg) : Statement (.sknp x) := wordXKK_mask _ _ _
theorem ldVxDt (x : Reg) : Statement (.ldVxDt x) := wordXKK_mask _ _ _
theorem ldVxK (x : Reg) : Statement (.ldVxK x) := wordXKK_mask _ _ _
theorem ldDtVx (x : Reg) : Statement (.ldDtVx x) := wordXKK_mask _ _ _
theorem ldStVx (x : Reg) : Statement (.ldStVx x) := wordXKK_mask _ _ _
theorem addI (x : Reg) : Statement (.addI x) := wordXKK_mask _ _ _
theorem ldF (x : Reg) : Statement (.ldF x) := wordXKK_mask _ _ _
theorem ldB (x : Reg) : Statement (.ldB x) := wordXKK_mask _ _ _
theorem storeRegs (x : Reg) : Statement (.storeRegs x) := wordXKK_mask _ _ _
theorem loadRegs (x : Reg) : Statement (.loadRegs x) := wordXKK_mask _ _ _

end Sys2Proof.Laws.FixedBits
end

