-- ==== Sys2Proof/Laws/Step.lean ====
section
/-! SUPPORT. Everything a Step can do, said once (`step_cases`), for the proofs of claims about every Step. -/

namespace Sys2Proof.Machine

/-! ## The timers after phases 1 to 3 (R82, R83), as numbers -/

theorem tick_toNat (b : Byte) : (if b = 0 then 0 else b - 1).toNat = b.toNat - 1 := by
  split
  · next h => subst h; rfl
  · next h =>
    have h0 : b.toNat ≠ 0 := fun e => h (BitVec.eq_of_toNat_eq e)
    have := b.isLt
    rw [BitVec.toNat_sub]
    simp only [BitVec.ofNat_eq_ofNat, BitVec.toNat_ofNat]
    omega

theorem beforeFetch_dt_toNat (s : State) : s.beforeFetch.dt.toNat = s.dt.toNat - 1 := tick_toNat _

theorem beforeFetch_st_toNat (s : State) : s.beforeFetch.st.toNat = s.st.toNat - 1 := tick_toNat _

theorem beforeFetch_audioTrigger_iff (s : State) : s.beforeFetch.audioTrigger = true ↔ s.st.toNat = 1 := by
  rw [State.beforeFetch_audioTrigger]
  simp [← BitVec.toNat_inj]

/-- What phases 1 to 3 leave, with the timers as numbers. -/
theorem beforeFetch_eq (s : State) : s.beforeFetch = { s with
    displayDirty := false
    audioTrigger := decide (s.st.toNat = 1)
    dt := BitVec.ofNat 8 (s.dt.toNat - 1)
    st := BitVec.ofNat 8 (s.st.toNat - 1) } := by
  have h1 : s.beforeFetch.dt = BitVec.ofNat 8 (s.dt.toNat - 1) := by
    apply BitVec.eq_of_toNat_eq
    rw [beforeFetch_dt_toNat, BitVec.toNat_ofNat]
    have := s.dt.isLt
    omega
  have h2 : s.beforeFetch.st = BitVec.ofNat 8 (s.st.toNat - 1) := by
    apply BitVec.eq_of_toNat_eq
    rw [beforeFetch_st_toNat, BitVec.toNat_ofNat]
    have := s.st.isLt
    omega
  have h3 : s.beforeFetch.audioTrigger = decide (s.st.toNat = 1) := by
    rw [Bool.eq_iff_iff, beforeFetch_audioTrigger_iff]
    simp
  rw [← h1, ← h2, ← h3]
  rfl

/-! ## What a Step does -/

/-- The four ways a Step goes (R80): halted, unfetchable, an unknown opcode, an instruction. -/
theorem step_cases (s : State) :
    (∃ c, s.halt = some c ∧ step s = .next (s.clearEdges.endStep s.haltStatus)) ∨
    (s.halt = none ∧ s.fetch = none ∧ step s = .next ((s.beforeFetch.raise .addressFault).endStep .addressFault)) ∨
    (s.halt = none ∧ ∃ op, s.fetch = some op ∧ decodeWord op = .unknown op ∧
      step s = .next (s.beforeFetch.unknownOpcode.endStep .unknownOpcode)) ∨
    (∃ i t, Executes s i ∧ exec i s.beforeFetch = .next t ∧ step s = .next (t.endStep t.haltStatus)) := by
  cases hh : s.halt with
  | some c => exact .inl ⟨c, rfl, by simp [step, cycle, hh]⟩
  | none =>
    cases hf : s.fetch with
    | none => exact .inr (.inl ⟨rfl, rfl, by simp [step, cycle, hh, hf]⟩)
    | some op =>
      cases hd : decodeWord op with
      | unknown u =>
        obtain rfl := decodeWord_unknown hd
        exact .inr (.inr (.inl ⟨rfl, _, rfl, hd, by simp [step, cycle, runWord, hh, hf, hd]⟩))
      | instr i =>
        obtain ⟨t, ht⟩ := exec_next i s.beforeFetch
        exact .inr (.inr (.inr ⟨i, t, ⟨hh, op, hf, hd⟩, ht, by simp [step, cycle, runWord, hh, hf, hd, ht]⟩))

/-- A Step that reaches the execute phase of `i` is `i`'s meaning on what phases 1 to 3 leave, then the end of the
Step. -/
theorem step_of_executes {s t : State} {i : Instr} (h : Executes s i) (ht : exec i s.beforeFetch = .next t) :
    step s = .next (t.endStep t.haltStatus) := by
  obtain ⟨hh, op, hf, hd⟩ := h
  simp [step, cycle, runWord, hh, hf, hd, ht]

/-- A run whose first Step answers `t` goes on from `t`. -/
theorem core_run_succ {k : Nat} {s t : State} (h : step s = .next t) : core.run (k + 1) s = core.run k t := by
  have general : ∀ (M : Host.Core) {a b : M.State}, M.step a = .next b → M.run (k + 1) a = M.run k b := by
    intro M a b hab
    rw [Host.Core.run]
    simp only [hab]
  exact general core h

/-- A Step executes at most one instruction. -/
theorem executes_unique {s : State} {i j : Instr} (hi : Executes s i) (hj : Executes s j) : i = j := by
  obtain ⟨-, op, hf, hd⟩ := hi
  obtain ⟨-, op', hf', hd'⟩ := hj
  rw [hf] at hf'
  obtain rfl := Option.some.inj hf'
  rw [hd] at hd'
  exact Decoded.instr.inj hd'

/-! ## The host's writes keep the canonical form -/

theorem loadProgram_mem_wf {s : State} (bytes : List Byte) (w : s.mem.wf = true) :
    (loadProgram bytes s).2.mem.wf = true := by
  unfold loadProgram
  split
  · exact w
  · next h =>
    simp only [Config.progMax] at h
    exact Memory.wf_writeBytes w (.inr (by simp only [Config.progBase, Config.memSize]; omega))

theorem withFetchWord_mem_wf {s : State} (nbits w : Nat) (h : s.mem.wf = true) :
    (s.withFetchWord nbits w).mem.wf = true := by
  unfold State.withFetchWord State.placeWord
  split
  · next hr =>
    have := (inRange_iff _ _).mp hr
    exact Memory.wf_writeBytes h (.inr (by simp; omega))
  · exact h

end Sys2Proof.Machine
end

