-- ==== Sys2Proof/Machine/Asm.lean ====
section
/-! DEFINITION. The assembler syntax of spec/30_encoding.md R73 and R74: the text of an instruction, and the bytes of a
list of source lines with labels. No part of the machine; it names what a ROM is written in. -/

namespace Sys2Proof.Machine

/-! ## The text of an instruction -/

/-- One hexadecimal digit, as in `VA` and `0x2F`. -/
def hexDigit (n : Nat) : String := ["0", "1", "2", "3", "4", "5", "6", "7", "8", "9", "A", "B", "C", "D", "E", "F"].getD n "?"

/-- A register, "written `V0`..`V9`, `VA`..`VF`". -/
def regText (x : Reg) : String := "V" ++ hexDigit x.val

/-- A byte "in hexadecimal with `0x`". -/
def byteText (b : Byte) : String := "0x" ++ hexDigit (b.toNat / 16) ++ hexDigit (b.toNat % 16)

/-- An address in hexadecimal. -/
def addrText (a : Addr12) : String :=
  "0x" ++ hexDigit (a.toNat / 256) ++ hexDigit (a.toNat / 16 % 16) ++ hexDigit (a.toNat % 16)

/-- Mnemonic, blank, operands separated by commas. -/
def lineText (mnemonic : String) (operands : List String) : String := mnemonic ++ " " ++ ", ".intercalate operands

/-- The line of an instruction, by the mnemonic column of R65. `SHR` and `SHL` are written with both operands unless
`y` is 0 (R73). -/
def instrText : Instr → String
  | .cls => "CLS"
  | .ret => "RET"
  | .jp nnn => lineText "JP" [addrText nnn]
  | .call nnn => lineText "CALL" [addrText nnn]
  | .seImm x kk => lineText "SE" [regText x, byteText kk]
  | .sneImm x kk => lineText "SNE" [regText x, byteText kk]
  | .seReg x y => lineText "SE" [regText x, regText y]
  | .ldImm x kk => lineText "LD" [regText x, byteText kk]
  | .addImm x kk => lineText "ADD" [regText x, byteText kk]
  | .ldReg x y => lineText "LD" [regText x, regText y]
  | .orReg x y => lineText "OR" [regText x, regText y]
  | .andReg x y => lineText "AND" [regText x, regText y]
  | .xorReg x y => lineText "XOR" [regText x, regText y]
  | .addReg x y => lineText "ADD" [regText x, regText y]
  | .subReg x y => lineText "SUB" [regText x, regText y]
  | .shr x y => lineText "SHR" (if y = 0 then [regText x] else [regText x, regText y])
  | .subnReg x y => lineText "SUBN" [regText x, regText y]
  | .shl x y => lineText "SHL" (if y = 0 then [regText x] else [regText x, regText y])
  | .sneReg x y => lineText "SNE" [regText x, regText y]
  | .ldI nnn => lineText "LD" ["I", addrText nnn]
  | .jpV0 nnn => lineText "JP" ["V0", addrText nnn]
  | .rnd x kk => lineText "RND" [regText x, byteText kk]
  | .drw x y n => lineText "DRW" [regText x, regText y, "0x" ++ hexDigit n]
  | .skp x => lineText "SKP" [regText x]
  | .sknp x => lineText "SKNP" [regText x]
  | .ldVxDt x => lineText "LD" [regText x, "DT"]
  | .ldVxK x => lineText "LD" [regText x, "K"]
  | .ldDtVx x => lineText "LD" ["DT", regText x]
  | .ldStVx x => lineText "LD" ["ST", regText x]
  | .addI x => lineText "ADD" ["I", regText x]
  | .ldF x => lineText "LD" ["F", regText x]
  | .ldB x => lineText "LD" ["B", regText x]
  | .storeRegs x => lineText "LD" ["[I]", regText x]
  | .loadRegs x => lineText "LD" [regText x, "[I]"]

/-! ## Source lines and the bytes of a ROM -/

/-- A line of a source: an instruction, one whose address operand is a label, a label, `DB` or `DW` (R73). Labels are
numbered. -/
inductive AsmLine where
  | instr (i : Instr)
  /-- An instruction whose address operand is that of a label. -/
  | toLabel (i : Instr) (label : Nat)
  /-- "a name followed by `:`", standing for the address of the next instruction. -/
  | label (name : Nat)
  | db (bytes : List Byte)
  | dw (w : Word)
  deriving DecidableEq, Repr

/-- The instruction with another address operand; one that has none stays. -/
def withAddr (nnn : Addr12) : Instr → Instr
  | .jp _ => .jp nnn
  | .call _ => .call nnn
  | .ldI _ => .ldI nnn
  | .jpV0 _ => .jpV0 nnn
  | i => i

/-- How many bytes a line puts into the ROM: "every mnemonic line is exactly one 16-bit word" (R74). -/
def AsmLine.size : AsmLine → Nat
  | .instr _ | .toLabel _ _ | .dw _ => 2
  | .label _ => 0
  | .db bytes => bytes.length

/-- The address of a label, the first line being at `a`; 0 for a label that no line names. -/
def labelAddr (name : Nat) (a : Nat) : List AsmLine → Nat
  | [] => 0
  | .label l :: rest => if l = name then a else labelAddr name a rest
  | line :: rest => labelAddr name (a + line.size) rest

/-- A word as two bytes, high byte first. -/
def wordAsBytes (w : Word) : List Byte := [(bytesOfWord w).1, (bytesOfWord w).2]

/-- The bytes of one line, in a source whose labels have the addresses `addr`. -/
def AsmLine.bytes (addr : Nat → Nat) : AsmLine → List Byte
  | .instr i => wordAsBytes (encode i)
  | .toLabel i l => wordAsBytes (encode (withAddr (BitVec.ofNat 12 (addr l)) i))
  | .label _ => []
  | .db bytes => bytes
  | .dw w => wordAsBytes w

/-- The ROM of a source: "the first instruction of a ROM is at 0x200" (R73). -/
def assemble (source : List AsmLine) : List Byte :=
  source.flatMap (AsmLine.bytes fun l => labelAddr l Config.progBase source)

end Sys2Proof.Machine
end

