-- ==== Sys2Proof/Tests/Slice0.lean ====
section
/-! SUPPORT. The model's own tests: the well-formedness smoke, a decoding for every constructor from a word written out
from the spec's encoding, single Steps whose results are the vectors of spec/95_test_vectors.md, and a witness for the
hypotheses of every statement. -/

namespace Sys2Proof.Tests

open Sys2Proof Sys2Proof.Machine Sys2Proof.Spec

/-! ## Well-formedness -/

theorem test_wellFormed_drw_15 : (Instr.drw 0 0 15).wellFormed = true := by decide
theorem test_wellFormed_refuses_drw_16 : (Instr.drw 0 0 16).wellFormed = false := by decide

/-! ## Decoding: words from the pattern column of R65 and spec/95_test_vectors.md 2.1 -/

theorem test_decode_cls : decodeWord 0x00E0 = .instr (.cls) := by decide
theorem test_decode_ret : decodeWord 0x00EE = .instr (.ret) := by decide
theorem test_decode_jp : decodeWord 0x1FFF = .instr (.jp 0xFFF) := by decide
theorem test_decode_call : decodeWord 0x2000 = .instr (.call 0x000) := by decide
theorem test_decode_seImm : decodeWord 0x332A = .instr (.seImm 3 0x2A) := by decide
theorem test_decode_sneImm : decodeWord 0x432B = .instr (.sneImm 3 0x2B) := by decide
theorem test_decode_seReg : decodeWord 0x5120 = .instr (.seReg 1 2) := by decide
theorem test_decode_ldImm : decodeWord 0x6A2F = .instr (.ldImm 10 0x2F) := by decide
theorem test_decode_addImm : decodeWord 0x7F01 = .instr (.addImm 15 0x01) := by decide
theorem test_decode_ldReg : decodeWord 0x8F10 = .instr (.ldReg 15 1) := by decide
theorem test_decode_orReg : decodeWord 0x8121 = .instr (.orReg 1 2) := by decide
theorem test_decode_andReg : decodeWord 0x8122 = .instr (.andReg 1 2) := by decide
theorem test_decode_xorReg : decodeWord 0x8123 = .instr (.xorReg 1 2) := by decide
theorem test_decode_addReg : decodeWord 0x8AB4 = .instr (.addReg 10 11) := by decide
theorem test_decode_subReg : decodeWord 0x8125 = .instr (.subReg 1 2) := by decide
theorem test_decode_shr : decodeWord 0x8126 = .instr (.shr 1 2) := by decide
theorem test_decode_subnReg : decodeWord 0x8127 = .instr (.subnReg 1 2) := by decide
theorem test_decode_shl : decodeWord 0x812E = .instr (.shl 1 2) := by decide
theorem test_decode_sneReg : decodeWord 0x9AB0 = .instr (.sneReg 10 11) := by decide
theorem test_decode_ldI : decodeWord 0xA2F0 = .instr (.ldI 0x2F0) := by decide
theorem test_decode_jpV0 : decodeWord 0xBFFF = .instr (.jpV0 0xFFF) := by decide
theorem test_decode_rnd : decodeWord 0xC30F = .instr (.rnd 3 0x0F) := by decide
theorem test_decode_drw : decodeWord 0xD12F = .instr (.drw 1 2 15) := by decide
theorem test_decode_skp : decodeWord 0xE09E = .instr (.skp 0) := by decide
theorem test_decode_sknp : decodeWord 0xE0A1 = .instr (.sknp 0) := by decide
theorem test_decode_ldVxDt : decodeWord 0xF007 = .instr (.ldVxDt 0) := by decide
theorem test_decode_ldVxK : decodeWord 0xF30A = .instr (.ldVxK 3) := by decide
theorem test_decode_ldDtVx : decodeWord 0xF215 = .instr (.ldDtVx 2) := by decide
theorem test_decode_ldStVx : decodeWord 0xF218 = .instr (.ldStVx 2) := by decide
theorem test_decode_addI : decodeWord 0xF21E = .instr (.addI 2) := by decide
theorem test_decode_ldF : decodeWord 0xF429 = .instr (.ldF 4) := by decide
theorem test_decode_ldB : decodeWord 0xF933 = .instr (.ldB 9) := by decide
theorem test_decode_storeRegs : decodeWord 0xFF55 = .instr (.storeRegs 15) := by decide
theorem test_decode_loadRegs : decodeWord 0xFF65 = .instr (.loadRegs 15) := by decide

/-- The unknown words of spec/95_test_vectors.md 2.1. -/
theorem test_decode_unknown :
    [0x00E1, 0x01E0, 0x0000, 0x0FFF, 0x5121, 0x9ABF, 0x8128, 0x8129, 0x812D, 0x812F, 0xE09F, 0xF000, 0xF075, 0xF0FF,
      0xFF66].all (fun w : Word => decodeWord w == .unknown w) = true := by decide

/-- Field extraction, spec/95_test_vectors.md 2.1. -/
theorem test_fields : (fieldO 0xD12F, fieldX 0xD12F, fieldY 0xD12F, fieldN 0xD12F, fieldKK 0xD12F, fieldNNN 0xD12F) =
    (0xD, 1, 2, 0xF, 0x2F, 0x12F) := by decide

/-- Bytes come high byte first, and the bytes after the instruction are left (R50, R60). -/
theorem test_decodeBytes : decodeBytes [0x6A, 0x11, 0x99] = .ok (.ldImm 10 0x11, [0x99]) := by decide
theorem test_decodeBytes_truncated : decodeBytes [0x6A] = .error .truncated := by decide
theorem test_decodeBytes_unknown : decodeBytes [0x00, 0x00] = .error (.unknownOpcode 0) := by decide
theorem test_decodeTableWord : decodeTableWord 16 0xD12F = some (.drw 1 2 15) := by decide
theorem test_decodeTableWord_unknown : decodeTableWord 16 0x5121 = none := by decide

/-! ## Single Steps: the vectors of spec/95_test_vectors.md, by their ids -/

/-- Reset with the word under test at PC, inputs and registers as listed. -/
def start (w : Nat) : State := State.reset.withFetchWord 16 w

/-- Bytes placed in memory from address `a` upward. -/
def put (a : Nat) (bytes : List Byte) (s : State) : State := { s with mem := s.mem.writeBytes a bytes }

/-- The same state with the key state and the random byte of the next Step. -/
def inputs (keys : BitVec 16) (rnd : Byte) (s : State) : State := { s with input := { keys := keys, rnd := rnd } }

/-- What is asserted of the state one Step leaves. -/
def after {α : Type} (s : State) (view : State → α) : Option α :=
  match step s with
  | .next t => some (view t)
  | .fault _ => none
  | .refused _ => none

/-- Vx, VF, PC and the status. -/
def aluView (x : Reg) (t : State) : Byte × Byte × Word × Status := (t.getV x, t.getV 15, t.pc, t.status)

/-- Three bytes from address `a`, DisplayDirty, I and the status. -/
def memView (a : Nat) (t : State) : List Byte × Bool × Word × Status :=
  (t.mem.readBytes a 3, t.displayDirty, t.i, t.status)

/-- PC, SP, Halt and the status. -/
def pcView (t : State) : Word × Int × Option Cause × Status := (t.pc, t.sp, t.halt, t.status)

/-- T40-1 -/
theorem test_timers_tick : after { start 0x1200 with dt := 3, st := 3 } (fun t => (t.dt, t.st, t.audioTrigger, t.pc)) =
    some (2, 2, false, 0x200) := by decide
/-- T40-3 -/
theorem test_audio_trigger : after { start 0x1200 with st := 1 } (fun t => (t.dt, t.st, t.audioTrigger)) = some (0, 0, true) := by decide
/-- T40-5 -/
theorem test_fetch_at_top : after (put 0xFFE [0x6A, 0x11] { State.reset with pc := 0xFFE }) (fun t => (t.getV 10, t.pc, t.halt)) =
    some (0x11, 0x1000, none) := by decide
/-- T40-6 -/
theorem test_fetch_fault : after { State.reset with pc := 0xFFF, dt := 3, st := 1 } (fun t => (t.dt, t.st, t.audioTrigger, t.pc, t.status)) =
    some (2, 0, true, 0xFFF, .addressFault) := by decide
/-- T40-7 -/
theorem test_fetch_odd : after (put 0x201 [0x6A, 0x11] { State.reset with pc := 0x201 }) (fun t => (t.getV 10, t.pc)) = some (0x11, 0x203) := by decide
/-- T40-8 -/
theorem test_unknown : after State.reset pcView = some (0x202, -1, none, .unknownOpcode) := by decide
/-- T60-2 -/
theorem test_halted : after { start 0x1200 with halt := some .addressFault, dt := 7, st := 1 }
    (fun t => (t.dt, t.st, t.audioTrigger, t.pc, t.status)) =
    some (7, 1, false, 0x200, .addressFault) := by decide

/-! ### Control transfer -/

/-- T41-2 -/
theorem test_jp : after (start 0x1201) pcView = some (0x201, -1, none, .ok) := by decide
/-- T41-3 -/
theorem test_call : after (start 0x2300) (fun t => (t.stack[0], pcView t)) = some (0x202, 0x300, 0, none, .ok) := by decide
/-- T41-4 -/
theorem test_call_overflow : after { start 0x2300 with depth := 16 } (fun t => (t.stack[15], pcView t)) =
    some (0, 0x200, 15, some .stackOverflow, .stackOverflow) := by decide
/-- T41-7 -/
theorem test_ret : after { start 0x00EE with stack := State.reset.stack.set 2 0x345, depth := 3 } (fun t => (t.stack[2], pcView t)) =
    some (0x345, 0x345, 1, none, .ok) := by decide
/-- T41-6 -/
theorem test_ret_underflow : after (start 0x00EE) pcView = some (0x200, -1, some .stackUnderflow, .stackUnderflow) := by decide
/-- T41-10 -/
theorem test_jpV0 : after ((start 0xBFFF).setV 0 0xFF) pcView = some (0x10FE, -1, none, .ok) := by decide
/-- T41-11 -/
theorem test_seImm : after ((start 0x332A).setV 3 0x2A) pcView = some (0x204, -1, none, .ok) := by decide
/-- T41-13 -/
theorem test_sneImm : after ((start 0x432A).setV 3 0x2A) pcView = some (0x202, -1, none, .ok) := by decide
/-- T41-16 -/
theorem test_seReg : after (((start 0x5120).setV 1 7).setV 2 8) pcView = some (0x202, -1, none, .ok) := by decide
/-- T41-18 -/
theorem test_sneReg : after (((start 0x9120).setV 1 7).setV 2 8) pcView = some (0x204, -1, none, .ok) := by decide

/-! ### Loads, ALU, random -/

/-- T42-1 -/
theorem test_ldImm : after (start 0x6A2F) (aluView 10) = some (0x2F, 0, 0x202, .ok) := by decide
/-- T42-2 -/
theorem test_addImm : after ((start 0x7002).setV 0 0xFF) (aluView 0) = some (0x01, 0, 0x202, .ok) := by decide
/-- T42-3 -/
theorem test_addImm_vf : after ((start 0x7F01).setV 15 0xFF) (aluView 15) = some (0x00, 0x00, 0x202, .ok) := by decide
/-- T42-5 -/
theorem test_ldReg : after ((start 0x8F10).setV 1 0x77) (aluView 15) = some (0x77, 0x77, 0x202, .ok) := by decide
/-- T42-6 -/
theorem test_orReg : after ((((start 0x8121).setV 1 0xF0).setV 2 0x0F).setV 15 0x55) (aluView 1) = some (0xFF, 0x55, 0x202, .ok) := by decide
/-- T42-7 -/
theorem test_andReg : after (((start 0x8122).setV 1 0xF3).setV 2 0x3F) (aluView 1) = some (0x33, 0, 0x202, .ok) := by decide
/-- T42-8 -/
theorem test_xorReg : after (((start 0x8123).setV 1 0xFF).setV 2 0x0F) (aluView 1) = some (0xF0, 0, 0x202, .ok) := by decide
/-- T42-10 -/
theorem test_addReg : after (((start 0x8124).setV 1 0xFF).setV 2 0x01) (aluView 1) = some (0x00, 1, 0x202, .ok) := by decide
/-- T42-16 -/
theorem test_addReg_vf_addend : after (((start 0x81F4).setV 1 0xFF).setV 15 0x01) (aluView 1) = some (0x00, 1, 0x202, .ok) := by decide
/-- T42-17 -/
theorem test_subReg : after (((start 0x8125).setV 1 0x01).setV 2 0x02) (aluView 1) = some (0xFF, 0, 0x202, .ok) := by decide
/-- T42-18 -/
theorem test_subReg_equal : after (((start 0x8125).setV 1 0x42).setV 2 0x42) (aluView 1) = some (0x00, 1, 0x202, .ok) := by decide
/-- T42-23 -/
theorem test_shr : after (((start 0x8126).setV 1 0x04).setV 2 0xFF) (aluView 1) = some (0x02, 0, 0x202, .ok) := by decide
/-- T42-25 -/
theorem test_shr_vf : after ((start 0x8F06).setV 15 0x02) (aluView 15) = some (0, 0, 0x202, .ok) := by decide
/-- T42-26 -/
theorem test_subnReg : after (((start 0x8127).setV 1 0x02).setV 2 0x01) (aluView 1) = some (0xFF, 0, 0x202, .ok) := by decide
/-- T42-27 -/
theorem test_subnReg_noBorrow : after (((start 0x8127).setV 1 0x01).setV 2 0x03) (aluView 1) = some (0x02, 1, 0x202, .ok) := by decide
/-- T42-29 -/
theorem test_shl : after ((start 0x810E).setV 1 0x81) (aluView 1) = some (0x02, 1, 0x202, .ok) := by decide
/-- T42-31 -/
theorem test_shl_vf : after ((start 0x8F0E).setV 15 0x81) (aluView 15) = some (1, 1, 0x202, .ok) := by decide
/-- T42-32 -/
theorem test_rnd : after (inputs 0 0xA7 (start 0xC30F)) (aluView 3) = some (0x07, 0, 0x202, .ok) := by decide

/-! ### Index and memory -/

/-- T43-1 -/
theorem test_ldI : after (start 0xA2F0) (fun t => (t.i, t.pc)) = some (0x02F0, 0x202) := by decide
/-- T43-2 -/
theorem test_addI : after (({ start 0xF21E with i := 0x0FFE }.setV 2 5).setV 15 9) (fun t => (t.i, t.getV 15)) = some (0x1003, 9) := by decide
/-- T43-6 -/
theorem test_ldF : after ((start 0xF429).setV 4 0xFF) (fun t => (t.i, t.pc)) = some (0x054B, 0x202) := by decide
/-- T43-10 -/
theorem test_ldB : after ({ start 0xF033 with i := 0x19E }.setV 0 0x80) (memView 0x19E) = some ([1, 2, 8], true, 0x19E, .ok) := by decide
/-- T43-13 -/
theorem test_ldB_fault : after ({ start 0xF033 with i := 0xFFE }.setV 0 0x80) (memView 0xFFD) =
    some ([0, 0, 0], false, 0xFFE, .addressFault) := by decide
/-- T43-14 -/
theorem test_storeRegs : after ((({ start 0xF255 with i := 0x400 }.setV 0 0x11).setV 1 0x22).setV 2 0x33) (memView 0x400) =
    some ([0x11, 0x22, 0x33], false, 0x400, .ok) := by decide
/-- T43-18 -/
theorem test_storeRegs_dirty : after { start 0xF055 with i := 0x0A0 } (memView 0x0A0) = some ([0, 0, 0], true, 0x0A0, .ok) := by decide
/-- T43-20 -/
theorem test_loadRegs : after { start 0xF465 with i := 0x050 } (fun t => ((t.getVs 5), t.i)) =
    some ([0xF0, 0x90, 0x90, 0x90, 0xF0, 0], 0x050) := by decide
/-- T43-21 -/
theorem test_loadRegs_fault : after (({ start 0xF165 with i := 0xFFF }.setV 0 9).setV 1 9) (fun t => (t.getV 0, t.getV 1, t.pc, t.status)) =
    some (9, 9, 0x200, .addressFault) := by decide

/-! ### Display -/

set_option maxRecDepth 8192 in
/-- T44-1 -/
theorem test_cls : after (put 0x19F [0xFF, 0xEE] (put 0x09F [0x80, 0x80] (start 0x00E0)))
    (fun t => (t.mem.readBytes 0x09F 2, t.mem.readBytes 0x19F 2, t.displayDirty, t.pc)) =
    some ([0x80, 0], [0, 0xEE], true, 0x202) := by decide
/-- T44-3 -/
theorem test_drw_wraps : after (put 0x300 [0xFF] ({ start 0xD011 with i := 0x300 }.setV 0 0x3C))
    (fun t => (t.mem.read 0x0A7, t.mem.read 0x0A0, t.getV 15, t.displayDirty)) = some (0x0F, 0xF0, 0, true) := by decide
/-- T44-5 -/
theorem test_drw_collides : after (put 0x0A0 [0x08] (put 0x300 [0xFF] ({ start 0xD011 with i := 0x300 }.setV 0 4)))
    (fun t => (t.mem.readBytes 0x0A0 2, t.getV 15)) = some ([0x07, 0xF0], 1) := by decide
/-- T44-7 -/
theorem test_drw_fault : after ({ start 0xD012 with i := 0xFFF }.setV 15 9) (fun t => (t.getV 15, t.displayDirty, t.pc, t.status)) =
    some (9, false, 0x200, .addressFault) := by decide

/-! ### Keypad and timers -/

/-- T45-3 -/
theorem test_skp : after (inputs 0x0400 0 ((start 0xE59E).setV 5 0x1A)) pcView = some (0x204, -1, none, .ok) := by decide
/-- T45-4 -/
theorem test_sknp : after (inputs 0x0400 0 ((start 0xE5A1).setV 5 0x0A)) pcView = some (0x202, -1, none, .ok) := by decide
/-- T45-7 -/
theorem test_ldVxK_waits : after (inputs 0 0 ((start 0xF30A).setV 3 0x77)) (aluView 3) = some (0x77, 0, 0x200, .ok) := by decide
/-- T45-8 -/
theorem test_ldVxK : after (inputs 0x0090 0 ((start 0xF30A).setV 3 0x77)) (aluView 3) = some (0x04, 0, 0x202, .ok) := by decide
/-- T45-11 -/
theorem test_ldVxDt : after { start 0xF207 with dt := 0x10 } (fun t => (t.getV 2, t.dt)) = some (0x0F, 0x0F) := by decide
/-- T45-13 -/
theorem test_ldDtVx : after ((start 0xF215).setV 2 0x3C) (fun t => (t.dt, t.pc)) = some (0x3C, 0x202) := by decide
/-- T45-16 -/
theorem test_ldStVx : after ({ start 0xF218 with st := 1 }.setV 2 9) (fun t => (t.st, t.audioTrigger)) = some (9, true) := by decide

/-! ### The host -/

/-- H4, the first byte of an older ROM beyond the new one stays -/
theorem test_loadProgram : (fun r : Bool × State => (r.1, r.2.mem.readBytes 0x200 3))
    (loadProgram [0x12, 0x00] (loadProgram [0xAA, 0xAA, 0xAA] State.reset).2) = (true, [0x12, 0x00, 0xAA]) := by decide
/-- H6 -/
theorem test_hostReset : hostReset (put 0x09B [0] { start 0x1200 with dt := 9, halt := some .stackOverflow }) = State.reset := by decide
/-- H6: bytes 0x09B to 0x09F -/
theorem test_font : State.reset.mem.readBytes 0x09B 5 = [0xF0, 0x80, 0xF0, 0x80, 0x80] := by decide
/-- the state the host places an instruction in is canonical -/
theorem test_withFetchWord_canonical : (State.reset.withFetchWord 16 0xD12F).mem = [(0x200, 0xD1), (0x201, 0x2F)] := by decide

/-! ### The assembler syntax -/

/-- P1: the ROM of its listing -/
theorem test_assemble : assemble [.instr (.ldImm 0 5), .instr (.ldImm 1 0), .label 1, .instr (.addReg 1 0),
    .instr (.addImm 0 0xFF), .instr (.seImm 0 0), .toLabel (.jp 0) 1, .label 2, .toLabel (.jp 0) 2] =
    [0x60, 0x05, 0x61, 0x00, 0x81, 0x04, 0x70, 0xFF, 0x30, 0x00, 0x12, 0x04, 0x12, 0x0C] := by decide
/-- P2, the line at 0x206 -/
theorem test_instrText : instrText (.loadRegs 2) = "LD V2, [I]" := by decide

/-! ## Witnesses: for every statement with hypotheses, states and operands that meet them together, each clause at a
boundary value. `exec_next` gives the next state a hypothesis speaks of. -/

/-- Reset at the highest address a fetch reaches, with an instruction there. -/
def atTop : State := put 0xFFE [0x6A, 0x11] { State.reset with pc := 0xFFE }

/-- Reset halted. -/
def halted (c : Cause) : State := { State.reset with halt := some c }

/-- The next Step of a running state executes what its word decodes to. -/
theorem executes_of {s : State} {i : Instr} (w : Word) (hh : s.halt = none) (hf : s.fetch = some w)
    (hd : decodeWord w = .instr i) : Executes s i := ⟨hh, w, hf, hd⟩

theorem witness_DecodeOfEncode : (Instr.drw 15 15 15).wellFormed = true := by decide

theorem witness_EncodeOfDecode : decodeWord 0xDFFF = .instr (.drw 15 15 15) := by decide

theorem witness_OpcodeMapSelectsOneInstruction : ∃ r ∈ rows, r.selects 0x00E0 :=
  ⟨_, List.mem_cons_self, by unfold Row.selects; decide⟩

theorem witness_UnknownWordsMatchNoRow : NoRow 0x0000 ∧ ¬ NoRow 0x00E0 := by
  unfold NoRow Row.selects
  decide

theorem witness_StepRunsTheDecodedInstruction : atTop.halt = none ∧ atTop.pc.toNat = 0xFFE ∧
    decodeWord (BitVec.ofNat 16 ((atTop.mem.read 0xFFE).toNat * 256 + (atTop.mem.read 0xFFF).toNat)) =
      .instr (.ldImm 10 0x11) ∧ ∃ t, exec (.ldImm 10 0x11) { atTop with
        displayDirty := false
        audioTrigger := decide (atTop.st.toNat = 1)
        dt := BitVec.ofNat 8 (atTop.dt.toNat - 1)
        st := BitVec.ofNat 8 (atTop.st.toNat - 1) } = .next t :=
  ⟨by decide, by decide, by decide, exec_next _ _⟩

theorem witness_UnknownOpcodeIsANoOp : State.reset.halt = none ∧ State.reset.fetch = some 0x0000 ∧ NoRow 0x0000 :=
  ⟨by decide, by decide, witness_UnknownWordsMatchNoRow.1⟩

theorem witness_HaltedStepDoesNothing : (halted .addressFault).halt = some .addressFault := by decide

theorem witness_FetchIsBigEndianOrFaults : atTop.pc.toNat ≤ 0xFFE ∧
    0xFFE < ({ State.reset with pc := 0xFFF } : State).pc.toNat ∧
    ({ State.reset with pc := 0xFFF } : State).halt = none := by decide

/-- A Step of each kind that the statements about every Step speak of. -/
theorem witness_step (s : State) : ∃ t, step s = .next t := by
  rcases step_cases s with ⟨c, -, h⟩ | ⟨-, -, h⟩ | ⟨-, op, -, -, h⟩ | ⟨i, t, -, -, h⟩ <;> exact ⟨_, h⟩

theorem witness_DelayTimerTicksEveryStep :
    (∃ t, State.reset.halt = none ∧ step State.reset = .next t ∧ ∀ x, ¬ Executes State.reset (.ldDtVx x)) ∧
    Executes (start 0xF215) (.ldDtVx 2) ∧ Executes (start 0xF207) (.ldVxDt 2) := by
  refine ⟨?_, executes_of 0xF215 rfl (by decide) (by decide), executes_of 0xF207 rfl (by decide) (by decide)⟩
  obtain ⟨t, ht⟩ := witness_step State.reset
  refine ⟨t, rfl, ht, ?_⟩
  rintro x ⟨-, op, hf, hd⟩
  have : State.reset.fetch = some 0x0000 := by decide
  rw [this] at hf
  cases hf
  exact absurd hd (by have : decodeWord 0x0000 = .unknown 0x0000 := by decide
                      rw [this]; simp)

theorem witness_AudioTriggerMarksTheEndOfSound : ∃ t, step { start 0xF218 with st := 1 } = .next t ∧
    ({ start 0xF218 with st := 1 } : State).halt = none ∧ Executes { start 0xF218 with st := 1 } (.ldStVx 2) := by
  obtain ⟨t, ht⟩ := witness_step { start 0xF218 with st := 1 }
  exact ⟨t, ht, rfl, executes_of 0xF218 rfl (by decide) (by decide)⟩

/-- The first and the last byte of the framebuffer change. -/
theorem witness_DisplayDirtyMarksFramebufferWrites :
    after ({ start 0xF055 with i := 0x0A0 }.setV 0 1) (fun t => t.mem.read 0x0A0) = some 1 ∧
    after ({ start 0xF055 with i := 0x19F }.setV 0 1) (fun t => t.mem.read 0x19F) = some 1 ∧
    (start 0xF055).mem.read 0x0A0 = 0 ∧ (start 0xF055).mem.read 0x19F = 0 ∧ InFb 0x0A0 ∧ InFb 0x19F := by
  unfold InFb
  decide

/-- Each status code occurs. -/
theorem witness_StatusTellsTheOutcome :
    after (start 0x1200) (fun t => t.status.code) = some 0 ∧
    after State.reset (fun t => t.status.code) = some 1 ∧
    after { start 0x2300 with depth := 16 } (fun t => t.status.code) = some 2 ∧
    after (start 0x00EE) (fun t => t.status.code) = some 3 ∧
    after { State.reset with pc := 0xFFF } (fun t => t.status.code) = some 4 := by decide

/-- Each cause of a fault occurs, just beyond its bound. -/
theorem witness_FaultsHaveExactlyTheirCauses :
    after { start 0x2300 with depth := 16 } State.halt = some (some .stackOverflow) ∧
    after (start 0x00EE) State.halt = some (some .stackUnderflow) ∧
    after { State.reset with pc := 0xFFF } State.halt = some (some .addressFault) ∧
    after { start 0xF033 with i := 0xFFE } State.halt = some (some .addressFault) ∧
    after { start 0xF155 with i := 0xFFF } State.halt = some (some .addressFault) ∧
    after { start 0xF165 with i := 0xFFF } State.halt = some (some .addressFault) ∧
    after { start 0xD012 with i := 0xFFF } State.halt = some (some .addressFault) := by decide

/-- And just inside it does not. -/
theorem witness_FaultsArePrecise : (start 0x00EE).halt = none ∧
    after (start 0x00EE) State.halt = some (some .stackUnderflow) ∧
    after { start 0xF033 with i := 0xFFD } State.halt = some none ∧
    after { start 0xF155 with i := 0xFFE } State.halt = some none ∧
    after { start 0xF165 with i := 0xFFE } State.halt = some none ∧
    after { start 0xD012 with i := 0xFFE } State.halt = some none := by decide

theorem witness_HaltIsStickyUntilReset : (halted .stackOverflow).halt = some .stackOverflow := by decide

theorem witness_ProgramCounterTable :
    (Executes (start 0xBFFF) (.jpV0 0xFFF) ∧ after (start 0xBFFF) State.halt = some none) ∧
    (State.reset.halt = none ∧ State.reset.fetch = some 0x0000 ∧ NoRow 0x0000) ∧
    after (start 0x00EE) State.halt = some (some .stackUnderflow) :=
  ⟨⟨executes_of 0xBFFF rfl (by decide) (by decide), by decide⟩, witness_UnknownOpcodeIsANoOp, by decide⟩

/-- A Step that changes each kind of state. -/
theorem witness_OnlyTheNamedInstructionsChangeState :
    after (start 0x6FFF) (fun t => t.getV 15) = some 0xFF ∧ after (start 0xA2F0) State.i = some 0x2F0 ∧
    after (start 0x2300) (fun t => (t.stack[0], t.sp)) = some (0x202, 0) ∧
    after ({ start 0xF055 with i := 0xFFF }.setV 0 1) (fun t => t.mem.read 0xFFF) = some 1 := by decide

theorem witness_UnreadRegistersDoNotMatter : ¬ reads (.addReg 1 2) 15 ∧ writes (.addReg 1 2) 15 ∧
    (∃ t, exec (.addReg 1 2) State.reset = .next t ∧ t.halt = none) ∧ ∀ x, Instr.addReg 1 2 ≠ .ldVxK x :=
  ⟨by simp [reads], by simp [writes], ⟨_, rfl, rfl⟩, by simp⟩

theorem witness_InputsMatterOnlyWhereUsed :
    (∀ i, Executes (start 0xC3FF) i → ¬ UsesKeys i) ∧ ∀ i, Executes (start 0xE59E) i → ¬ UsesRnd i := by
  have h : Executes (start 0xC3FF) (.rnd 3 0xFF) := executes_of 0xC3FF rfl (by decide) (by decide)
  have h' : Executes (start 0xE59E) (.skp 5) := executes_of 0xE59E rfl (by decide) (by decide)
  constructor
  · intro i hi
    rw [← executes_unique h hi]
    simp [UsesKeys]
  · intro i hi
    rw [← executes_unique h' hi]
    simp [UsesRnd]

theorem witness_PendingInputsAreUsedInOrder :
    ∃ t, ({ State.reset with pending := [⟨1, 2⟩, ⟨3, 4⟩] } : State).pending = [⟨1, 2⟩, ⟨3, 4⟩] ∧
      step { State.reset with pending := [⟨1, 2⟩, ⟨3, 4⟩] } = .next t := by
  obtain ⟨t, ht⟩ := witness_step { State.reset with pending := [⟨1, 2⟩, ⟨3, 4⟩] }
  exact ⟨t, rfl, ht⟩

/-- A state that meets the invariant at its bounds, and a Step from it. -/
theorem witness_EveryStepKeepsTheInvariant :
    ∃ s t : State, s.Inv ∧ s.pc.toNat = 0x10FE ∧ s.stack[0].toNat = 0x1000 ∧ step s = .next t := by
  obtain ⟨t, ht⟩ := witness_step
    { State.reset with pc := 0x10FE, stack := State.reset.stack.set 0 0x1000, mem := [(0xFFF, 1)] }
  exact ⟨_, t, ⟨by decide, by decide, by decide⟩, by decide, by decide, ht⟩

/-- A reachable state with PC at the bound: "V0 = 0xFF, word 0xBFFF gives PC = 0x10FE" (R103). -/
theorem witness_ReachableStatesStayInRange : ∃ s, Reachable s ∧ s.pc.toNat = 0x10FE := by
  have h0 : Reachable { State.reset with input := ⟨0, 0⟩, pending := [⟨0, 0⟩, ⟨0, 0⟩] } := .reset _ _
  obtain ⟨s1, e1⟩ : ∃ s1, loadProgram [0x60, 0xFF, 0xBF, 0xFF]
      { State.reset with input := ⟨0, 0⟩, pending := [⟨0, 0⟩, ⟨0, 0⟩] } = (true, s1) := ⟨_, rfl⟩
  have h1 : Reachable s1 := .op (.load [0x60, 0xFF, 0xBF, 0xFF]) h0 (by rw [HostOp.apply, e1])
  have v1 : after (inputs 0 0 s1) (fun t => (t.pc, t.getV 0, t.fetch, t.halt)) = some (0x202, 0xFF, some 0xBFFF, none) := by
    cases e1; decide
  obtain ⟨s2, e2⟩ := witness_step (inputs 0 0 s1)
  have h2 : Reachable s2 := .op (.step 0 0) h1 e2
  simp only [after, e2, Option.some.injEq, Prod.mk.injEq] at v1
  have x : Executes (inputs 0 0 s2) (.jpV0 0xFFF) := executes_of 0xBFFF v1.2.2.2 v1.2.2.1 (by decide)
  have e3 := step_of_executes x rfl
  refine ⟨_, .op (.step 0 0) h2 e3, ?_⟩
  simp only [State.endStep_pc, State.jump_pc]
  show (zext12 0xFFF + zext8 (s2.getV 0)).toNat = _
  rw [v1.2.1]
  decide

/-- The empty stack, one entry, a full one. -/
theorem witness_ReturnPopsTheStack : State.reset.sp = -1 ∧
    ({ State.reset with depth := 1 } : State).sp = ((0 : Fin 16).val : Int) ∧
    ({ State.reset with depth := 16 } : State).sp = ((15 : Fin 16).val : Int) := by decide

theorem witness_CallPushesTheReturnAddress : ({ State.reset with depth := 16 } : State).sp = 15 ∧
    State.reset.sp + 1 = ((0 : Fin 16).val : Int) ∧
    ({ State.reset with depth := 15 } : State).sp + 1 = ((15 : Fin 16).val : Int) := by decide

theorem witness_ReturnAfterCallComesBack : ∃ t, ({ State.reset with depth := 15 } : State).sp < 15 ∧
    exec (.call 0x300) { State.reset with depth := 15 } = .next t := by
  obtain ⟨t, ht⟩ := exec_next (.call 0x300) { State.reset with depth := 15 }
  exact ⟨t, by decide, ht⟩

theorem witness_JumpsSetTheExactTarget : ∃ t u, exec (.jp 0xFFF) State.reset = .next t ∧ t.fetch = none ∧
    exec (.jp 0xFFE) State.reset = .next u ∧ u.fetch ≠ none := ⟨_, _, rfl, by decide, rfl, by decide⟩

theorem witness_JumpToSelfLoopsWhileTimersTick :
    Executes { start 0x1200 with dt := 3, st := 1 } (.jp 0x200) ∧
    (0x200 : Addr12).toNat = ({ start 0x1200 with dt := 3, st := 1 } : State).pc.toNat :=
  ⟨executes_of 0x1200 rfl (by decide) (by decide), by decide⟩

theorem witness_AddSetsTheCarry : (0 : Reg) ≠ 15 ∧ 255 < val ((State.reset.setV 1 0xFF).setV 2 1) 1 +
    val ((State.reset.setV 1 0xFF).setV 2 1) 2 := by decide

theorem witness_BcdStoresThreeDigits : ({ State.reset with i := 0xFFD } : State).i.toNat ≤ 0xFFD ∧
    0xFFD < ({ State.reset with i := 0xFFE } : State).i.toNat := by decide

theorem witness_RegisterDumpStoresV0ToVx : ({ State.reset with i := 0xFF0 } : State).i.toNat + (15 : Reg).val ≤ 0xFFF ∧
    0xFFF < ({ State.reset with i := 0xFF1 } : State).i.toNat + (15 : Reg).val := by decide

theorem witness_RegisterLoadReadsV0ToVx : ({ State.reset with i := 0xFFF } : State).i.toNat + (0 : Reg).val ≤ 0xFFF ∧
    0xFFF < ({ State.reset with i := 0xFFF } : State).i.toNat + (1 : Reg).val := by decide

theorem witness_LoadAfterDumpRestoresRegisters : ∃ t,
    ({ State.reset with i := 0xFF0 } : State).i.toNat + (15 : Reg).val ≤ 0xFFF ∧
    exec (.storeRegs 15) { State.reset with i := 0xFF0 } = .next t := by
  obtain ⟨t, ht⟩ := exec_next (.storeRegs 15) { State.reset with i := 0xFF0 }
  exact ⟨t, by decide, ht⟩

/-- T43-23: the dump stores over the word after it. -/
theorem witness_FetchSeesTheStoreBefore : ∃ t, exec (.storeRegs 1) { start 0xF155 with i := 0x202 } = .next t ∧
    ({ start 0xF155 with i := 0x202 } : State).i.toNat + (1 : Reg).val ≤ 0xFFF ∧
    (1 : Reg).val = (0 : Reg).val + 1 ∧ (1 : Reg) ≤ 1 ∧
    t.pc.toNat = ({ start 0xF155 with i := 0x202 } : State).i.toNat + (0 : Reg).val := by
  refine ⟨_, rfl, by decide, by decide, by decide, by decide⟩

/-- No row at all, the last sprite that fits, the first that does not. -/
theorem witness_DrawXorsTheSprite : (0 : Nat) ≤ 15 ∧
    ({ State.reset with i := 0xFF1 } : State).i.toNat + 15 - 1 ≤ 0xFFF ∧
    0xFFF < ({ State.reset with i := 0xFFF } : State).i.toNat + 2 - 1 := by decide

theorem witness_DrawingTwiceRestoresTheScreen : ∃ s t u : State, s.i.toNat + 5 - 1 ≤ 0xFFF ∧
    (∀ r, r < 5 → ¬ InFb (s.i.toNat + r)) ∧ exec (.drw 0 1 5) s = .next t ∧ exec (.drw 0 1 5) t = .next u ∧
    (∀ px py, px < 64 → py < 32 → toggles s 0 1 5 px py = true → lit s px py = false) ∧
    ∃ r c, r < 5 ∧ c < 8 ∧ spriteBit s r c = true := by
  obtain ⟨t, ht⟩ := exec_next (.drw 0 1 5) { State.reset with i := 0x050 }
  obtain ⟨u, hu⟩ := exec_next (.drw 0 1 5) t
  refine ⟨{ State.reset with i := 0x050 }, t, u, by decide, ?_, ht, hu, ?_, 0, 0, by decide, by decide, by decide⟩
  · unfold InFb
    decide
  · intro px py hx hy _
    have : (State.reset.mem.read (0x0A0 + py * 8 + px / 8)) = 0 := by
      simp only [State.reset, Memory.read, resetByte, Config.fontBase]
      rw [if_pos (by omega), List.getD_eq_default _ _ (by simp [font]; omega)]
    simp only [lit]
    rw [this]
    simp

theorem witness_WaitForKeyTakesTheLowestKey : (inputs 0 0 (start 0xF30A)).input.keys = 0 ∧
    (inputs 0x8000 0 (start 0xF30A)).input.keys ≠ 0 ∧ Executes (inputs 0 0 (start 0xF30A)) (.ldVxK 3) :=
  ⟨by decide, by decide, executes_of 0xF30A rfl (by decide) (by decide)⟩

theorem witness_LoadProgramCopiesOrRejects : (List.replicate 3584 (0xAA : Byte)).length ≤ 3584 ∧
    3584 < (List.replicate 3585 (0xFF : Byte)).length := by
  rw [List.length_replicate, List.length_replicate]
  decide

theorem witness_RegisterSkips : 0 < 1 ∧ 15 < 16 ∧ decodeWord (wordXyn 5 15 15 15) = .unknown 0x5FFF := by decide

theorem witness_ResetValues : State.reset ∈ [State.reset, hostReset (halted .stackOverflow)] ∧
    15 < 16 ∧ 4 < 5 ∧ 0x050 + 5 * 15 + 4 = 0x09F ∧ 0xFFF < 0x1000 := ⟨List.mem_cons_self, by decide⟩

end Sys2Proof.Tests
end

section
/-! The rules of spec/10_state.md: what PC is after a Step, which instruction changes which item, which registers an
instruction depends on, the reset values, and the invariant that every Step keeps. -/

namespace Sys2Proof.Machine

open Sys2Proof.Spec

variable {s t : State}

/-! ## A decoded word is the word of its instruction (R61, R62, R65) -/

theorem encode_of_decodeFixed {w : Word} {i : Instr} (h : decodeFixed w = .instr i) : encode i = w := by
  unfold decodeFixed at h
  split at h
  · next e => cases h; exact e.symm
  split at h
  · next e => cases h; exact e.symm
  · cases h

theorem encode_of_decodeAlu {w : Word} {i : Instr} (ho : fieldO w = 0x8) (h : decodeAlu w = .instr i) :
    encode i = w := by
  have eta := wordXYN_eta w
  rw [ho] at eta
  unfold decodeAlu at h
  dsimp only at h
  split at h <;> cases h
  all_goals
    next hn =>
    rw [hn] at eta
    exact eta

theorem encode_of_decodeKey {w : Word} {i : Instr} (ho : fieldO w = 0xE) (h : decodeKey w = .instr i) :
    encode i = w := by
  have eta := wordXKK_eta w
  rw [ho] at eta
  unfold decodeKey at h
  dsimp only at h
  split at h <;> cases h
  all_goals
    next hk =>
    rw [hk] at eta
    exact eta

theorem encode_of_decodeMisc {w : Word} {i : Instr} (ho : fieldO w = 0xF) (h : decodeMisc w = .instr i) :
    encode i = w := by
  have eta := wordXKK_eta w
  rw [ho] at eta
  unfold decodeMisc at h
  dsimp only at h
  split at h <;> cases h
  all_goals
    next hk =>
    rw [hk] at eta
    exact eta

/-- One case per primary opcode: the families by their own lemmas, the rest by putting the fields back together. -/
theorem encode_of_decodeWord {w : Word} {i : Instr} (h : decodeWord w = .instr i) : encode i = w := by
  have nnn := wordNNN_eta w
  have xkk := wordXKK_eta w
  have xyn := wordXYN_eta w
  unfold decodeWord at h
  dsimp only at h
  split at h
  case h_1 => exact encode_of_decodeFixed h
  case h_9 ho => exact encode_of_decodeAlu ho h
  case h_15 ho => exact encode_of_decodeKey ho h
  case h_16 =>
    have ho : fieldO w = 0xF := by
      have := nibble_cases (fieldO w)
      simp_all
    exact encode_of_decodeMisc ho h
  case h_6 ho | h_10 ho =>
    split at h <;> cases h
    next hn =>
    rw [ho, hn] at xyn
    exact xyn
  case h_14 ho =>
    cases h
    rw [ho] at xyn
    simpa [encode] using xyn
  case h_2 ho | h_3 ho | h_11 ho | h_12 ho => cases h; rw [ho] at nnn; exact nnn
  all_goals
    next ho =>
    cases h
    rw [ho] at xkk
    exact xkk

open Laws in
/-- Every instruction's word has its row's fixed bits, all families of Laws/PerInstr.lean in one statement (R65). -/
theorem encode_and_mask (i : Instr) : encode i &&& FixedBits.mask i = FixedBits.fixed i := by
  cases i
  case cls | ret => rfl
  case jp | call | ldI | jpV0 => exact wordNNN_mask _ _
  case seImm | sneImm | ldImm | addImm | rnd => exact wordXKK_mask_o _ _ _
  case drw => exact wordXYN_mask_o _ _ _ _
  case seReg | ldReg | orReg | andReg | xorReg | addReg | subReg | shr | subnReg | shl | sneReg =>
    exact wordXYN_mask _ _ _ _
  case skp | sknp | ldVxDt | ldVxK | ldDtVx | ldStVx | addI | ldF | ldB | storeRegs | loadRegs =>
    exact wordXKK_mask _ _ _

theorem mask_fixed_mem_rows (i : Instr) :
    (Laws.FixedBits.mask i, Laws.FixedBits.fixed i) ∈ rows.map fun r => (r.mask, r.pattern) := by
  cases i <;> simp only [Laws.FixedBits.mask, Laws.FixedBits.fixed] <;> decide

/-- A word that no row of R65 selects decodes to no instruction (R68). -/
theorem decodeWord_ne_instr_of_noRow {w : Word} (h : NoRow w) (i : Instr) : decodeWord w ≠ .instr i := by
  intro hd
  obtain ⟨r, hr, e⟩ := List.mem_map.mp (mask_fixed_mem_rows i)
  obtain ⟨hm, hp⟩ := Prod.mk.inj e
  refine h r hr ?_
  rw [Row.selects, hm, hp, ← encode_of_decodeWord hd]
  exact encode_and_mask i

/-! ## PC after an instruction (R14) -/

theorem zext12_eq_ofNat (nnn : Addr12) : zext12 nnn = BitVec.ofNat 16 nnn.toNat := by
  apply BitVec.eq_of_toNat_eq
  simp [zext12]

theorem zext8_eq_ofNat (b : Byte) : zext8 b = BitVec.ofNat 16 b.toNat := by
  apply BitVec.eq_of_toNat_eq
  simp [zext8]

/-- The key number is the register modulo 16, so its low four bits (R170, R176). -/
theorem keyDown_eq_keyBit (s : State) (x : Reg) : s.keyDown x = keyBit s x := by
  simp [State.keyDown, keyBit, val]

/-- An instruction raises a fault, with no effect but Halt, or leaves PC at the value the table of R14 gives. -/
theorem exec_pc {i : Instr} (h : exec i s = .next t) : (∃ c, t = s.raise c) ∨ t.pc = pcAfter s i := by
  cases i
  case ret =>
    simp only [exec, execRet] at h
    split at h
    · cases h; exact .inl ⟨_, rfl⟩
    · next hp =>
      obtain ⟨k, hk, rfl, rfl⟩ := State.pop_some hp
      cases h
      exact .inr (by simp [pcAfter, hk])
  case call =>
    simp only [exec, execCall] at h
    split at h <;> cases h
    · exact .inl ⟨_, rfl⟩
    · exact .inr (zext12_eq_ofNat _)
  case drw =>
    simp only [exec, execDrw] at h
    split at h <;> cases h
    · exact .inl ⟨_, rfl⟩
    · exact .inr rfl
  case ldB =>
    simp only [exec, execLdB] at h
    split at h
    · cases h; exact .inl ⟨_, rfl⟩
    · next hp =>
      obtain ⟨-, rfl⟩ := State.store_some hp
      cases h; exact .inr rfl
  case storeRegs =>
    simp only [exec, execStoreRegs] at h
    split at h
    · cases h; exact .inl ⟨_, rfl⟩
    · next hp =>
      obtain ⟨-, rfl⟩ := State.store_some hp
      cases h; exact .inr rfl
  case loadRegs =>
    simp only [exec, execLoadRegs] at h
    split at h <;> cases h
    · exact .inl ⟨_, rfl⟩
    · exact .inr (by simp [pcAfter])
  case ldVxK =>
    simp only [exec, execLdVxK] at h
    split at h <;> cases h
    · next hk => exact .inr (if_pos (lowestKey_none.mp hk)).symm
    · next hk =>
      have pressed : s.input.keys ≠ 0 := fun e => by simp [lowestKey_none.mpr e] at hk
      exact .inr (if_neg pressed).symm
  case cls =>
    obtain ⟨bytes, -, -, e⟩ := exec_cls s
    rw [e] at h
    cases h; exact .inr rfl
  case jp => cases h; exact .inr (zext12_eq_ofNat _)
  case jpV0 =>
    cases h
    exact .inr (by simp [pcAfter, val, zext12_eq_ofNat, zext8_eq_ofNat, BitVec.ofNat_add])
  case seImm | sneImm | seReg | sneReg =>
    cases h
    exact .inr (by simp [pcAfter, val, BitVec.toNat_inj])
  case skp x | sknp x =>
    cases h
    cases hk : keyBit s x <;> exact .inr (by simp [pcAfter, keyDown_eq_keyBit, hk])
  all_goals cases h; exact .inr rfl

theorem pcAfter_beforeFetch (s : State) (i : Instr) : pcAfter s.beforeFetch i = pcAfter s i := by
  cases i <;> rfl

/-! ## Settling the table of R14 -/

/-- A Step that executes `i` ends the Step on the state `i` answers. -/
theorem step_eq_endStep {i : Instr} (h : step s = .next t) (hi : Executes s i) :
    ∃ u, exec i s.beforeFetch = .next u ∧ t = u.endStep u.haltStatus := by
  obtain ⟨u, hu⟩ := exec_next i s.beforeFetch
  rw [step_of_executes hi hu] at h
  cases h
  exact ⟨u, hu, rfl⟩

theorem step_pc_of_executes {i : Instr} (h : step s = .next t) (hi : Executes s i) (hh : t.halt = none) :
    t.pc = pcAfter s i := by
  obtain ⟨u, hu, rfl⟩ := step_eq_endStep h hi
  obtain ⟨c, rfl⟩ | hpc := exec_pc hu
  · simp at hh
  · simpa [pcAfter_beforeFetch] using hpc

theorem step_pc_of_noRow {w : Word} (h : step s = .next t) (hh : s.halt = none) (hf : s.fetch = some w)
    (hw : NoRow w) : t.pc = s.pc + 2 := by
  obtain ⟨c, hc, -⟩ | ⟨-, hn, -⟩ | ⟨-, -, -, -, e⟩ | ⟨i, -, ⟨-, op, hop, hd⟩, -, -⟩ := step_cases s
  · simp [hh] at hc
  · simp [hf] at hn
  · rw [e] at h
    cases h
    simp [State.unknownOpcode]
  · rw [hf] at hop
    cases hop
    exact absurd hd (decodeWord_ne_instr_of_noRow hw i)

/-- A fault keeps PC (R195), and so does a Step of a halted machine (R81). -/
theorem step_pc_of_halted (h : step s = .next t) (hh : t.halt ≠ none) : t.pc = s.pc := by
  obtain ⟨c, -, e⟩ | ⟨-, -, e⟩ | ⟨hn, -, -, -, e⟩ | ⟨i, u, ⟨hn, -⟩, hu, e⟩ := step_cases s <;> rw [e] at h <;> cases h
  · simp
  · simp
  · simp [State.unknownOpcode, hn] at hh
  · obtain ⟨c, -, rfl⟩ | ⟨-, hk⟩ := exec_cases hu
    · simp
    · simp [hk, hn] at hh

/-- Settles O18, one clause per way a Step goes. -/
theorem programCounterTable : Obligations.ProgramCounterTable := fun _ _ h =>
  ⟨fun _ => step_pc_of_executes h, fun _ => step_pc_of_noRow h, step_pc_of_halted h⟩

/-! ## The invariant (R17, R49) -/

/-- The invariant speaks of PC, the stack and memory alone. -/
theorem State.Inv.congr (hs : s.Inv) (hp : t.pc = s.pc) (hk : t.stack = s.stack) (hm : t.mem = s.mem) : t.Inv :=
  ⟨hp ▸ hs.pc_le, hk ▸ hs.stack_le, hm ▸ hs.mem_wf⟩

theorem inv_reset : State.reset.Inv where
  pc_le := by decide
  stack_le k := by simp [State.reset]
  mem_wf := Memory.wf_nil

theorem eq_of_mayWrite_stack {i : Instr} {k : Fin 16} (h : MayWrite i s (.stack k)) :
    ∃ nnn, i = .call nnn ∧ s.sp + 1 = (k.val : Int) := by
  cases i <;> simp_all [MayWrite]

/-- Every stack entry of a state that an instruction answers is an old one or the return address of a call. -/
theorem exec_stack {i : Instr} (h : exec i s = .next t) (k : Fin 16) :
    t.stack[k] = s.stack[k] ∨ t.stack[k] = s.pc + 2 := by
  by_cases hw : MayWrite i s (.stack k)
  · obtain ⟨nnn, rfl, hk⟩ := eq_of_mayWrite_stack hw
    simp only [exec, execCall] at h
    split at h
    · cases h; exact .inl rfl
    · next hp =>
      obtain ⟨hlt, hd, rfl⟩ := State.push_some hp
      cases h
      have e : k.val = s.depth.val := by rw [State.sp_eq] at hk; omega
      exact .inr (by simp [← e])
  · exact .inl (exec_frame h hw (by simp))

/-- The greatest values of the table of R14: a jump with offset gives 0xFFF + 0xFF, a return a stack entry. -/
theorem pcAfter_le (hs : s.Inv) (hp : s.pc.toNat ≤ 0xFFE) (i : Instr) : (pcAfter s i).toNat ≤ 0x10FE := by
  have h2 : (s.pc + 2).toNat = s.pc.toNat + 2 := by simp; omega
  have h4 : (s.pc + 4).toNat = s.pc.toNat + 4 := by simp; omega
  cases i
  case jp nnn | call nnn =>
    have := nnn.isLt
    simp only [pcAfter, BitVec.toNat_ofNat]
    omega
  case jpV0 nnn =>
    have := nnn.isLt
    have := (s.getV 0).isLt
    simp only [pcAfter, val, BitVec.toNat_ofNat]
    omega
  case ret =>
    simp only [pcAfter]
    by_cases hk : s.sp.toNat < 16
    · have := hs.stack_le ⟨s.sp.toNat, hk⟩
      simpa [hk] using this.trans (by decide)
    · simp [hk]
  case seImm | sneImm | seReg | sneReg | skp | sknp | ldVxK =>
    simp only [pcAfter]
    split <;> omega
  all_goals
    simp only [pcAfter]
    omega

/-- An instruction fetched from memory keeps the invariant. -/
theorem exec_inv {i : Instr} (hs : s.Inv) (hp : s.pc.toNat ≤ 0xFFE) (h : exec i s = .next t) : t.Inv where
  pc_le := by
    obtain ⟨c, rfl⟩ | e := exec_pc h
    · exact hs.pc_le
    · rw [e]; exact pcAfter_le hs hp i
  stack_le k := by
    obtain e | e := exec_stack h k <;> rw [e]
    · exact hs.stack_le k
    · simp; omega
  mem_wf := exec_mem_wf h hs.mem_wf

theorem step_inv (hs : s.Inv) (h : step s = .next t) : t.Inv := by
  have hb : s.beforeFetch.Inv := hs.congr rfl rfl rfl
  obtain ⟨c, -, e⟩ | ⟨-, -, e⟩ | ⟨-, op, hf, -, e⟩ | ⟨i, u, ⟨-, op, hf, -⟩, hu, e⟩ := step_cases s <;>
    rw [e] at h <;> cases h
  · exact hs.congr (by simp) (by simp) (by simp)
  · exact hs.congr (by simp) (by simp) (by simp)
  · have := State.pc_le_of_fetch hf
    exact ⟨by simp [State.unknownOpcode]; omega, by simpa [State.unknownOpcode] using hs.stack_le,
      by simpa [State.unknownOpcode] using hs.mem_wf⟩
  · exact (exec_inv hb (State.pc_le_of_fetch hf) hu).congr (by simp) (by simp) (by simp)

/-- Settles O23: PC by the table of R14, stack entries by what a call pushes, memory by the checked stores. -/
theorem everyStepKeepsTheInvariant : Obligations.EveryStepKeepsTheInvariant := fun _ _ => step_inv

/-- Settles O24. -/
theorem resetMeetsTheInvariant : Obligations.ResetMeetsTheInvariant := inv_reset

theorem loadProgram_inv (bytes : List Byte) (hs : s.Inv) : (loadProgram bytes s).2.Inv where
  pc_le := by unfold loadProgram; split <;> exact hs.pc_le
  stack_le := by unfold loadProgram; split <;> exact hs.stack_le
  mem_wf := loadProgram_mem_wf bytes hs.mem_wf

/-- Every host operation keeps the invariant (R212). -/
theorem hostOp_inv (hs : s.Inv) {o : HostOp} (h : o.apply s = .next t) : t.Inv := by
  cases o
  case reset => cases h; exact inv_reset.congr rfl rfl rfl
  case load bytes =>
    cases h
    exact loadProgram_inv bytes hs
  case step keys rnd => exact step_inv (s := { s with input := ⟨keys, rnd⟩ }) (hs.congr rfl rfl rfl) h

theorem inv_of_reachable (h : Reachable s) : s.Inv := by
  induction h with
  | reset => exact inv_reset.congr rfl rfl rfl
  | op o _ applied ih => exact hostOp_inv ih applied

/-- Settles O25: the invariant holds in every reachable state, and the range of SP is in the type of the depth. -/
theorem reachableStatesStayInRange : Obligations.ReachableStatesStayInRange := fun s h =>
  have inv := inv_of_reachable h
  ⟨inv.pc_le, s.sp_range.1, s.sp_range.2, inv.mem_wf⟩

/-! ## Which instruction changes which item (R12, R18, R19, R52) -/

theorem same_trans {p : Item} {u : State} (h : p.same s t) (h' : p.same t u) : p.same s u := by
  cases p <;> exact Eq.trans h' h

theorem endStep_frame (s : State) (r : Status) {p : Item} (hp : p ∉ stepItems) : p.same s (s.endStep r) := by
  cases p <;> simp [stepItems] at hp <;> simp [Item.same, State.sp_eq]

theorem clearEdges_frame (s : State) {p : Item} (hp : p ∉ stepItems) : p.same s s.clearEdges := by
  cases p
  case displayDirty | audioTrigger => simp [stepItems] at hp
  all_goals rfl

theorem beforeFetch_frame (s : State) {p : Item} (hp : p ∉ stepItems) : p.same s s.beforeFetch := by
  cases p
  case displayDirty | audioTrigger | dt | st => simp [stepItems] at hp
  all_goals rfl

/-- An item besides PC, Halt and those a Step changes outside its execute phase changes only by an instruction that may
write it. -/
theorem step_frame (h : step s = .next t) {p : Item} (hp : p ∉ .pc :: .halt :: stepItems) (hc : ¬ p.same s t) :
    ∃ i, Executes s i ∧ MayWrite i s p := by
  simp only [List.mem_cons, not_or] at hp
  obtain ⟨hpc, hh, hp⟩ := hp
  have before := beforeFetch_frame s hp
  obtain ⟨c, -, e⟩ | ⟨-, -, e⟩ | ⟨-, -, -, -, e⟩ | ⟨i, u, hi, hu, e⟩ := step_cases s <;> rw [e] at h <;> cases h
  · exact absurd (same_trans (clearEdges_frame s hp) (endStep_frame _ _ hp)) hc
  · exact absurd (same_trans (same_trans before (raise_frame _ _ hh)) (endStep_frame _ _ hp)) hc
  · exact absurd (same_trans (same_trans before (jump_frame _ _ hpc)) (endStep_frame _ _ hp)) hc
  · refine ⟨i, hi, ?_⟩
    by_contra hw
    exact hc (same_trans (same_trans before (exec_frame hu hw hh)) (endStep_frame _ _ hp))

theorem writes_of_mayWrite {i : Instr} {r : Reg} (h : MayWrite i s (.v r)) : writes i r := by
  cases i <;> simp_all [MayWrite, writes]

theorem eq_of_mayWrite_i {i : Instr} (h : MayWrite i s .i) :
    (∃ nnn, i = .ldI nnn) ∨ (∃ x, i = .addI x) ∨ ∃ x, i = .ldF x := by
  cases i <;> simp_all [MayWrite]

theorem eq_of_mayWrite_sp {i : Instr} (h : MayWrite i s .sp) : i = .ret ∨ ∃ nnn, i = .call nnn := by
  cases i <;> simp_all [MayWrite]

theorem eq_of_mayWrite_mem {i : Instr} {a : Nat} (h : MayWrite i s (.mem a)) :
    i = .cls ∨ (∃ x y n, i = .drw x y n) ∨ (∃ x, i = .ldB x) ∨ ∃ x, i = .storeRegs x := by
  cases i <;> simp_all [MayWrite]

/-- Settles O19: each kind of item by `step_frame` and the instructions that may write it. -/
theorem onlyTheNamedInstructionsChangeState : Obligations.OnlyTheNamedInstructionsChangeState := by
  intro s t h
  refine ⟨fun r hc => ?_, fun hc => ?_, fun k hc => ?_, fun hc => ?_, fun a hc => ?_⟩
  · obtain ⟨i, hi, hw⟩ := step_frame h (p := .v r) (by simp [stepItems]) hc
    exact ⟨i, hi, writes_of_mayWrite hw⟩
  · obtain ⟨i, hi, hw⟩ := step_frame h (p := .i) (by simp [stepItems]) hc
    exact ⟨i, hi, eq_of_mayWrite_i hw⟩
  · obtain ⟨i, hi, hw⟩ := step_frame h (p := .stack k) (by simp [stepItems]) hc
    obtain ⟨nnn, rfl, -⟩ := eq_of_mayWrite_stack hw
    exact ⟨nnn, hi⟩
  · obtain ⟨i, hi, hw⟩ := step_frame h (p := .sp) (by simp [stepItems]) hc
    obtain rfl | ⟨nnn, rfl⟩ := eq_of_mayWrite_sp hw
    · exact .inl hi
    · exact .inr ⟨nnn, hi⟩
  · obtain ⟨i, hi, hw⟩ := step_frame h (p := .mem a) (by simp [stepItems]) hc
    exact ⟨i, hi, eq_of_mayWrite_mem hw⟩

/-! ## The registers an instruction does not read (R12) -/

namespace State

theorem setV_setV_same (s : State) (r : Reg) (b c : Byte) : (s.setV r b).setV r c = s.setV r c := by
  simp [setV]

theorem setV_setV_comm (s : State) {x r : Reg} (b c : Byte) (h : x ≠ r) :
    (s.setV r b).setV x c = (s.setV x c).setV r b := by
  have : r.val ≠ x.val := fun e => h (Fin.ext e.symm)
  simp [setV, Vector.set_comm _ _ this]

theorem setVAndFlag_setV_comm (s : State) {x r : Reg} (b c f : Byte) (h : x ≠ r) (hf : Reg.vf ≠ r) :
    (s.setV r b).setVAndFlag x c f = (s.setVAndFlag x c f).setV r b := by
  simp only [setVAndFlag]
  rw [setV_setV_comm _ _ _ h, setV_setV_comm _ _ _ hf]

/-- The result and the flag hide what the register held, whichever of them lands on it. -/
theorem setVAndFlag_setV_hide (s : State) {x r : Reg} (b c f : Byte) (h : r = x ∨ r = Reg.vf) :
    (s.setV r b).setVAndFlag x c f = s.setVAndFlag x c f := by
  simp only [setVAndFlag]
  by_cases hx : r = x
  · subst hx; rw [setV_setV_same]
  · obtain rfl := h.resolve_left hx
    rw [setV_setV_comm _ _ _ (Ne.symm hx), setV_setV_same]

theorem setVs_setV_comm (s : State) {k : Nat} {r : Reg} (b : Byte) (bytes : List Byte)
    (h : ¬ (k ≤ r.val ∧ r.val < k + bytes.length)) :
    (s.setV r b).setVs k bytes = (s.setVs k bytes).setV r b := by
  induction bytes generalizing s k with
  | nil => rfl
  | cons c cs ih =>
    simp only [List.length_cons] at h
    simp only [setVs]
    rw [← ih _ (by omega)]
    split
    · rw [setV_setV_comm]
      rintro rfl
      simp at h
    · rfl

theorem setVs_setV_hide (s : State) {k : Nat} {r : Reg} (b : Byte) (bytes : List Byte)
    (h : k ≤ r.val ∧ r.val < k + bytes.length) : (s.setV r b).setVs k bytes = s.setVs k bytes := by
  induction bytes generalizing s k with
  | nil => simp at h; omega
  | cons c cs ih =>
    simp only [List.length_cons] at h
    simp only [setVs]
    have hk : k < 16 := by omega
    simp only [hk, dif_pos]
    by_cases hr : r.val = k
    · obtain rfl : r = ⟨k, hk⟩ := Fin.ext hr
      rw [setV_setV_same]
    · rw [setV_setV_comm _ _ _ fun e => hr (by simp [← e]), ih _ (by omega)]

theorem getVs_setV (s : State) {x r : Reg} (b : Byte) (h : ¬ r ≤ x) : (s.setV r b).getVs x = s.getVs x := by
  have : x.val + 1 ≤ r.val := Fin.not_le.mp h
  simp [getVs, setV, Vector.toList_set, List.take_set_of_le this]

theorem load_setV (s : State) (r : Reg) (b : Byte) (a n : Nat) : (s.setV r b).load a n = s.load a n := rfl

theorem store_setV (s : State) (r : Reg) (b : Byte) (a : Nat) (bytes : List Byte) :
    (s.setV r b).store a bytes = (s.store a bytes).map fun t => t.setV r b := by
  unfold store; split <;> rfl

theorem push_setV (s : State) (r : Reg) (b : Byte) (w : Word) :
    (s.setV r b).push w = (s.push w).map fun t => t.setV r b := by
  by_cases h : s.depth.val < 16
  · simp [push, h]; rfl
  · simp [push, h]

theorem pop_setV (s : State) (r : Reg) (b : Byte) :
    (s.setV r b).pop = s.pop.map fun q => (q.1, q.2.setV r b) := by
  unfold pop
  rw [setV_depth]
  split <;> rfl

end State

/-- What an instruction does commutes with a register it neither reads nor writes. -/
theorem exec_setV_of_not_writes {i : Instr} {r : Reg} (b : Byte) (hr : ¬ reads i r) (hw : ¬ writes i r)
    (h : exec i s = .next t) : exec i (s.setV r b) = .next (t.setV r b) := by
  cases i <;> simp only [reads, writes, not_or, not_false_eq_true] at hr hw
  case ret =>
    simp only [exec, execRet, State.pop_setV] at h ⊢
    split at h <;> cases h <;> simp only [*] <;> rfl
  case call =>
    simp only [exec, execCall, State.push_setV, State.setV_pc] at h ⊢
    split at h <;> cases h <;> simp only [*] <;> rfl
  case ldB x =>
    simp only [exec, execLdB, State.store_setV, State.setV_i, State.getV_setV_ne s b (Ne.symm hr)] at h ⊢
    split at h <;> cases h <;> simp only [*] <;> rfl
  case storeRegs x =>
    simp only [exec, execStoreRegs, State.store_setV, State.setV_i, State.getVs_setV s b hr] at h ⊢
    split at h <;> cases h <;> simp only [*] <;> rfl
  case loadRegs x =>
    simp only [exec, execLoadRegs, State.load_setV, State.setV_i] at h ⊢
    split at h
    · cases h; rfl
    · next hl =>
      cases h
      rw [State.setVs_setV_comm]
      · rfl
      · obtain ⟨-, rfl⟩ := State.load_some hl
        rw [Memory.length_readBytes]
        rw [Fin.le_def] at hw
        omega
  case drw x y n =>
    obtain ⟨hx, hy⟩ := hr
    simp only [exec, execDrw, State.load_setV, State.setV_i, State.setV_mem, State.getV_setV_ne s b (Ne.symm hx),
      State.getV_setV_ne s b (Ne.symm hy)] at h ⊢
    split at h <;> cases h
    · rfl
    · exact congrArg (fun u : State => Host.Outcome.next (u.jump (s.pc + 2)))
        (State.setV_setV_comm { s with mem := _, displayDirty := true } b _ (Ne.symm hw))
  case ldVxK x =>
    simp only [exec, execLdVxK, State.setV_input, State.setV_setV_comm s b _ (Ne.symm hw)] at h ⊢
    split at h <;> cases h <;> rfl
  case cls =>
    simp only [exec, execCls, State.setV_mem] at h ⊢
    generalize s.mem.writeBytes _ _ = m at h ⊢
    cases h; rfl
  case jp | ldI => cases h; rfl
  case jpV0 | seImm | sneImm | skp | sknp | ldDtVx | ldStVx | addI | ldF =>
    cases h
    simp only [exec, execJpV0, execSeImm, execSneImm, execSkp, execSknp, execLdDtVx, execLdStVx, execAddI, execLdF,
      State.keyDown, State.getV_setV_ne s b (Ne.symm hr)]
    rfl
  case seReg | sneReg =>
    obtain ⟨hx, hy⟩ := hr
    cases h
    simp only [exec, execSeReg, execSneReg, State.getV_setV_ne s b (Ne.symm hx), State.getV_setV_ne s b (Ne.symm hy)]
    rfl
  case ldImm | rnd | ldVxDt =>
    cases h
    simp only [exec, execLdImm, execRnd, execLdVxDt, State.setV_setV_comm s b _ (Ne.symm hw)]
    rfl
  case addImm =>
    cases h
    simp only [exec, execAddImm, State.getV_setV_ne s b (Ne.symm hr), State.setV_setV_comm s b _ (Ne.symm hw)]
    rfl
  case ldReg =>
    cases h
    simp only [exec, execLdReg, State.getV_setV_ne s b (Ne.symm hr), State.setV_setV_comm s b _ (Ne.symm hw)]
    rfl
  case orReg | andReg | xorReg =>
    obtain ⟨hx, hy⟩ := hr
    cases h
    simp only [exec, execOrReg, execAndReg, execXorReg, State.getV_setV_ne s b (Ne.symm hx),
      State.getV_setV_ne s b (Ne.symm hy), State.setV_setV_comm s b _ (Ne.symm hw)]
    rfl
  case addReg | subReg | subnReg =>
    obtain ⟨hx, hy⟩ := hr
    cases h
    simp only [exec, execAddReg, execSubReg, execSubnReg, State.getV_setV_ne s b (Ne.symm hx),
      State.getV_setV_ne s b (Ne.symm hy), State.setVAndFlag_setV_comm s b _ _ (Ne.symm hw.1) (Ne.symm hw.2)]
    rfl
  case shr | shl =>
    cases h
    simp only [exec, execShr, execShl, State.getV_setV_ne s b (Ne.symm hr),
      State.setVAndFlag_setV_comm s b _ _ (Ne.symm hw.1) (Ne.symm hw.2)]
    rfl

/-- An instruction hides what a register it writes and does not read held before, unless it raises a fault and so
leaves the register alone. -/
theorem exec_setV_of_writes {i : Instr} {r : Reg} (b : Byte) (hr : ¬ reads i r) (hw : writes i r)
    (hk : ∀ x, i ≠ .ldVxK x) (h : exec i s = .next t) :
    exec i (s.setV r b) = .next t ∨ (∃ c, t = s.raise c) ∧ exec i (s.setV r b) = .next (t.setV r b) := by
  cases i <;> simp only [reads, writes, not_or] at hr hw
  case ldVxK x => exact absurd rfl (hk x)
  case ldImm | rnd | ldVxDt =>
    subst hw
    cases h
    left
    simp only [exec, execLdImm, execRnd, execLdVxDt, State.setV_input, State.setV_dt, State.setV_setV_same]
  case addImm => exact absurd hw hr
  case orReg | andReg | xorReg => exact absurd hw hr.1
  case ldReg =>
    subst hw
    cases h
    left
    simp only [exec, execLdReg, State.getV_setV_ne s b (Ne.symm hr), State.setV_setV_same]
  case addReg | subReg | subnReg =>
    obtain ⟨hx, hy⟩ := hr
    cases h
    left
    simp only [exec, execAddReg, execSubReg, execSubnReg, State.getV_setV_ne s b (Ne.symm hx),
      State.getV_setV_ne s b (Ne.symm hy), State.setVAndFlag_setV_hide s b _ _ hw]
  case shr | shl =>
    cases h
    left
    simp only [exec, execShr, execShl, State.getV_setV_ne s b (Ne.symm hr), State.setVAndFlag_setV_hide s b _ _ hw]
  case drw x y n =>
    subst hw
    obtain ⟨hx, hy⟩ := hr
    simp only [exec, execDrw, State.load_setV, State.setV_i, State.setV_mem, State.getV_setV_ne s b (Ne.symm hx),
      State.getV_setV_ne s b (Ne.symm hy)] at h ⊢
    split at h
    · cases h; exact .inr ⟨⟨_, rfl⟩, rfl⟩
    · cases h
      exact .inl (congrArg (fun u : State => Host.Outcome.next (u.jump (s.pc + 2)))
        (State.setV_setV_same { s with mem := _, displayDirty := true } 15 b _))
  case loadRegs x =>
    simp only [exec, execLoadRegs, State.load_setV, State.setV_i] at h ⊢
    split at h
    · cases h; exact .inr ⟨⟨_, rfl⟩, rfl⟩
    · next hl =>
      cases h
      left
      rw [State.setVs_setV_hide]
      obtain ⟨-, rfl⟩ := State.load_some hl
      rw [Memory.length_readBytes]
      rw [Fin.le_def] at hw
      omega

theorem changesOnly_setV (s : State) (r : Reg) (b : Byte) : ChangesOnly [.v r] s (s.setV r b) := by
  intro p hp
  cases p
  case v k => exact State.getV_setV_ne s b fun e => hp (by simp [e])
  all_goals rfl

theorem changesOnly_refl (items : List Item) (s : State) : ChangesOnly items s s := fun p _ => by cases p <;> rfl

/-- Fx0A overwrites its register or, with no key down, leaves it. -/
theorem exec_ldVxK_setV_same (s : State) (x : Reg) (b : Byte) :
    ∃ t t', exec (.ldVxK x) s = .next t ∧ exec (.ldVxK x) (s.setV x b) = .next t' ∧ ChangesOnly [.v x] t t' := by
  simp only [exec, execLdVxK, State.setV_input, State.setV_setV_same]
  split
  · exact ⟨_, _, rfl, rfl, changesOnly_setV s x b⟩
  · exact ⟨_, _, rfl, rfl, changesOnly_refl _ _⟩

/-- Settles O20: the register keeps its other value where the instruction does not write it or faults, and is hidden
where the instruction writes it; Fx0A may do either. -/
theorem unreadRegistersDoNotMatter : Obligations.UnreadRegistersDoNotMatter := by
  intro i s r b hr
  obtain ⟨t, h⟩ := exec_next i s
  by_cases hw : writes i r
  · by_cases hk : ∃ x, i = .ldVxK x
    · obtain ⟨x, rfl⟩ := hk
      obtain rfl : r = x := hw
      obtain ⟨t, t', h, h', hc⟩ := exec_ldVxK_setV_same s r b
      exact ⟨t, t', h, h', hc, fun _ _ hk => absurd rfl (hk r)⟩
    · obtain h' | ⟨⟨c, rfl⟩, h'⟩ := exec_setV_of_writes b hr hw (not_exists.mp hk) h
      · exact ⟨t, t, h, h', changesOnly_refl _ _, fun _ _ _ => rfl⟩
      · exact ⟨_, _, h, h', changesOnly_setV _ r b, fun _ hn => nomatch hn⟩
  · exact ⟨t, _, h, exec_setV_of_not_writes b hr hw h, changesOnly_setV t r b, fun hw' => absurd hw' hw⟩

/-! ## The reset values (R32, R220) -/

/-- The glyph table of R46 is what reset leaves at 0x050 upward. -/
theorem resetByte_glyph : ∀ d < 16, ∀ row < 5, resetByte (0x050 + 5 * d + row) = (glyphs.getD d []).getD row 0 := by
  decide

theorem resetByte_outside_font {a : Nat} (h : a < 0x050 ∨ 0x09F < a) : resetByte a = 0 := by
  unfold resetByte
  split
  · next hb => exact List.getD_eq_default _ _ (by simp [font] at hb ⊢; omega)
  · rfl

/-- Settles O50: a reset of the host differs from the constructed state in the model's own fields alone. -/
theorem resetValues : Obligations.ResetValues := by
  intro s r hr
  have h : ∃ inp pend n, r = { State.reset with input := inp, pending := pend, draws := n } := by
    simp only [List.mem_cons, List.not_mem_nil, or_false] at hr
    obtain rfl | rfl := hr <;> exact ⟨_, _, _, rfl⟩
  obtain ⟨inp, pend, n, rfl⟩ := h
  refine ⟨fun x => ?_, rfl, rfl, fun k => ?_, rfl, rfl, rfl, rfl, rfl, rfl, fun d row hd hrow => ?_, fun a _ ha => ?_⟩
  · simp [State.getV, State.reset]
  · simp [State.reset]
  · exact resetByte_glyph d hd row hrow
  · exact resetByte_outside_font ha

end Sys2Proof.Machine
end

section
/-! The rules of spec/20_memory.md: what a dump of registers leaves in memory, and that the next fetch reads it there. -/

namespace Sys2Proof.Machine

open Sys2Proof.Spec

variable {s t : State}

/-! ## A dump of registers in range (R144) -/

/-- The state a dump in range leaves. -/
theorem exec_storeRegs_of_le {x : Reg} (h : s.i.toNat + x.val ≤ 0xFFF) :
    exec (.storeRegs x) s = .next ({ s with
      mem := s.mem.writeBytes s.i.toNat (s.getVs x)
      displayDirty := s.displayDirty ||
        (List.range (s.getVs x).length).any fun k => inFramebuffer (s.i.toNat + k) } : State).advance := by
  have hr : inRange s.i.toNat (s.getVs x).length = true := by
    rw [inRange_iff, State.length_getVs]
    omega
  simp only [exec, execStoreRegs, State.store_of_inRange hr]

/-- Each register dumped is read back at its own address. -/
theorem read_of_exec_storeRegs {x k : Reg} (h : s.i.toNat + x.val ≤ 0xFFF) (he : exec (.storeRegs x) s = .next t)
    (hk : k ≤ x) : t.mem.read (s.i.toNat + k.val) = s.getV k := by
  have hlen : k.val < (s.getVs x).length := by
    rw [State.length_getVs]
    exact Nat.lt_succ_of_le hk
  rw [exec_storeRegs_of_le h] at he
  cases he
  simp only [State.advance_eq, State.jump_mem]
  rw [Memory.read_writeBytes_inside _ _ _ _ hlen, State.getElem_getVs x k hk]

/-- Settles O44: the fetch at I + k reads the two bytes the dump stored there, high byte first (R50, R55, R85). -/
theorem fetchSeesTheStoreBefore : Obligations.FetchSeesTheStoreBefore := by
  intro s t x k k' h hkk' hk' he hpc
  have hx : k'.val ≤ x.val := hk'
  have hk : k ≤ x := Fin.le_def.mpr (by omega)
  have hi : t.mem.read t.pc.toNat = s.getV k := by rw [hpc, read_of_exec_storeRegs h he hk]
  have lo : t.mem.read (t.pc.toNat + 1) = s.getV k' := by
    rw [hpc, Nat.add_assoc, ← hkk', read_of_exec_storeRegs h he hk']
  have reached : t.pc.toNat ≤ 0xFFE := by omega
  refine ⟨_, State.fetch_of_le reached, ?_⟩
  rw [hi, lo, State.wordOfBytes_toNat, val, val]

end Sys2Proof.Machine
end

section
/-! The rules of spec/30_encoding.md: decode and encode are inverse, the opcode map of R65 selects what the decoder
answers, and what an unknown opcode does. -/

namespace Sys2Proof.Machine

open Sys2Proof.Spec

variable {s : State} {w p : Word}

/-! ## Decode of encode (R61, R62, R65) -/

/-- The fields of the word are the operands; the decoder's path is the row's primary opcode, then its secondary one. -/
theorem decodeWord_encode {i : Instr} (h : i.wellFormed = true) : decodeWord (encode i) = .instr i := by
  cases i
  case cls | ret => rfl
  case jp | call | ldI | jpV0 | seImm | sneImm | ldImm | addImm | rnd | seReg | sneReg => simp [encode, decodeWord]
  case ldReg | orReg | andReg | xorReg | addReg | subReg | shr | subnReg | shl => simp [encode, decodeWord, decodeAlu]
  case drw x y n =>
    have hn : n < 16 := Nat.lt_succ_of_le (of_decide_eq_true h)
    simp [encode, decodeWord, Nat.mod_eq_of_lt hn]
  case skp | sknp => simp [encode, decodeWord, decodeKey]
  case ldVxDt | ldVxK | ldDtVx | ldStVx | addI | ldF | ldB | storeRegs | loadRegs =>
    simp [encode, decodeWord, decodeMisc]

/-- Settles O1, by the format of each instruction. -/
theorem decodeOfEncode : Obligations.DecodeOfEncode := fun _ => decodeWord_encode

/-! ## Encode of decode (R63, R67) -/

/-- A sprite height the decoder reads is a nibble; every other instruction is well formed by its type. -/
theorem wellFormed_of_decodeWord {i : Instr} (h : decodeWord w = .instr i) : i.wellFormed = true := by
  cases i
  case drw x y n =>
    have hw : wordXYN 0xD x y (BitVec.ofNat 4 n) = w := encode_of_decodeWord h
    subst hw
    have hn : n % 16 = n := by simpa [decodeWord] using h
    exact decide_eq_true (by omega)
  all_goals rfl

/-- Settles O2: well-formedness from the width of the height field, the word from its fields put together again. -/
theorem encodeOfDecode : Obligations.EncodeOfDecode := fun _ _ h =>
  ⟨wellFormed_of_decodeWord h, encode_of_decodeWord h⟩

/-! ## The fields of the opcode map are the decoder's fields (R61) -/

theorem x_eq_fieldX (w : Word) : x w = fieldX w := Fin.ext (fieldX_val w).symm

theorem y_eq_fieldY (w : Word) : y w = fieldY w := Fin.ext (fieldY_val w).symm

theorem ofNat_n_eq_fieldN (w : Word) : BitVec.ofNat 4 (n w) = fieldN w := by
  rw [n, ← fieldN_toNat, BitVec.ofNat_toNat, BitVec.setWidth_eq]

theorem kk_eq_fieldKK (w : Word) : kk w = fieldKK w := by
  rw [kk, ← fieldKK_toNat, BitVec.ofNat_toNat, BitVec.setWidth_eq]

theorem nnn_eq_fieldNNN (w : Word) : nnn w = fieldNNN w := by
  rw [nnn, ← fieldNNN_toNat, BitVec.ofNat_toNat, BitVec.setWidth_eq]

/-! ## A word from its match and its operands, one lemma per format (R62, R65) -/

theorem wordNNN_of_match (h : w &&& 0xF000 = p) : wordNNN (fieldO p) (nnn w) = w := by
  have ho : fieldO p = fieldO w := by rw [← h, ← wordNNN_eta w, wordNNN_mask]; simp
  rw [ho, nnn_eq_fieldNNN, wordNNN_eta]

theorem wordXKK_of_match (h : w &&& 0xF000 = p) : wordXKK (fieldO p) (x w) (kk w) = w := by
  have ho : fieldO p = fieldO w := by rw [← h, ← wordXKK_eta w, wordXKK_mask_o]; simp
  rw [ho, x_eq_fieldX, kk_eq_fieldKK, wordXKK_eta]

theorem wordXYN_of_match (h : w &&& 0xF000 = p) :
    wordXYN (fieldO p) (x w) (y w) (BitVec.ofNat 4 (n w)) = w := by
  have ho : fieldO p = fieldO w := by rw [← h, ← wordXYN_eta w, wordXYN_mask_o]; simp
  rw [ho, x_eq_fieldX, y_eq_fieldY, ofNat_n_eq_fieldN, wordXYN_eta]

theorem wordXSUB_of_match (h : w &&& 0xF0FF = p) : wordXKK (fieldO p) (x w) (fieldKK p) = w := by
  have hp : p = wordXKK (fieldO w) 0 (fieldKK w) := by rw [← h, ← wordXKK_mask _ (fieldX w), wordXKK_eta]
  rw [hp, fieldO_wordXKK, fieldKK_wordXKK, x_eq_fieldX, wordXKK_eta]

theorem wordXY_of_match (h : w &&& 0xF00F = p) : wordXYN (fieldO p) (x w) (y w) (fieldN p) = w := by
  have hp : p = wordXYN (fieldO w) 0 0 (fieldN w) := by
    rw [← h, ← wordXYN_mask _ (fieldX w) (fieldY w), wordXYN_eta]
  rw [hp, fieldO_wordXYN, fieldN_wordXYN, x_eq_fieldX, y_eq_fieldY, wordXYN_eta]

theorem eq_of_match (h : w &&& 0xFFFF = p) : p = w := by
  rw [← h]; exact BitVec.and_allOnes

/-! ## The opcode map (R65) -/

/-- A row's instruction has the word that the row selects: the format of each of the 34 rows, in order. -/
theorem encode_instr_of_selects (w : Word) : ∀ r ∈ rows, r.selects w → encode (r.instr w) = w := by
  simp only [rows, Row.selects, List.cons_append, List.nil_append, List.forall_mem_cons]
  exact ⟨eq_of_match, eq_of_match, wordNNN_of_match, wordNNN_of_match, wordXKK_of_match, wordXKK_of_match,
    wordXY_of_match, wordXKK_of_match, wordXKK_of_match,
    wordXY_of_match, wordXY_of_match, wordXY_of_match, wordXY_of_match, wordXY_of_match, wordXY_of_match,
    wordXY_of_match, wordXY_of_match, wordXY_of_match, wordXY_of_match,
    wordNNN_of_match, wordNNN_of_match, wordXKK_of_match, wordXYN_of_match, wordXSUB_of_match, wordXSUB_of_match,
    wordXSUB_of_match, wordXSUB_of_match, wordXSUB_of_match, wordXSUB_of_match, wordXSUB_of_match,
    wordXSUB_of_match, wordXSUB_of_match, wordXSUB_of_match, wordXSUB_of_match, List.forall_mem_nil _⟩

theorem wellFormed_instr (w : Word) : ∀ r ∈ rows, (r.instr w).wellFormed = true := by
  have hn : n w ≤ 15 := Nat.le_of_lt_succ (Nat.mod_lt _ (by decide))
  simp [rows, Instr.wellFormed, hn]

theorem decodeWord_of_selects {r : Row} (hr : r ∈ rows) (h : r.selects w) : decodeWord w = .instr (r.instr w) := by
  have hd := decodeWord_encode (wellFormed_instr w r hr)
  rwa [encode_instr_of_selects w r hr h] at hd

/-- Two rows that select one word agree on the bits both masks keep. -/
theorem pattern_and_mask_of_selects {r r' : Row} (h : r.selects w) (h' : r'.selects w) :
    r.pattern &&& r'.mask = r'.pattern &&& r.mask := by
  rw [← h, ← h', BitVec.and_assoc, BitVec.and_assoc, BitVec.and_comm r.mask]

/-- Any two rows differ on a bit that both their masks keep. -/
theorem rows_pairwise_disagree :
    rows.Pairwise fun r r' => r.pattern &&& r'.mask ≠ r'.pattern &&& r.mask := by
  decide

/-- Settles O3: a selected word is the word of the row's instruction, so O1 decodes it; an overlap would need two rows
that agree on the bits both masks keep. -/
theorem opcodeMapSelectsOneInstruction : Obligations.OpcodeMapSelectsOneInstruction :=
  ⟨fun _ hr _ h => decodeWord_of_selects hr h,
    rows_pairwise_disagree.imp fun hne _ ⟨h, h'⟩ => hne (pattern_and_mask_of_selects h h')⟩

/-! ## Unknown opcodes (R64, R68 to R70) -/

theorem decodeWord_of_noRow (h : NoRow w) : decodeWord w = .unknown w := by
  cases hd : decodeWord w with
  | instr i => exact absurd hd (decodeWord_ne_instr_of_noRow h i)
  | unknown u => rw [decodeWord_unknown hd]

/-- Settles O4: a selected word decodes to its row's instruction, and each instruction's word is selected. -/
theorem unknownWordsMatchNoRow : Obligations.UnknownWordsMatchNoRow := by
  refine fun w => ⟨fun hu r hr h => ?_, decodeWord_of_noRow⟩
  rw [decodeWord_of_selects hr h] at hu
  cases hu

/-- The Step of an unknown opcode: phases 1 to 3, PC + 2 and the status (R68, R80). -/
theorem step_of_noRow (hh : s.halt = none) (hf : s.fetch = some w) (hw : NoRow w) :
    step s = .next ((s.beforeFetch.jump (s.pc + 2)).endStep .unknownOpcode) := by
  simp [step, cycle, runWord, hh, hf, decodeWord_of_noRow hw, State.unknownOpcode]

theorem beforeFetch_jump_endStep_changesOnly (s : State) (target : Word) (r : Status) :
    ChangesOnly (.pc :: stepItems) s ((s.beforeFetch.jump target).endStep r) := by
  intro q hq
  obtain ⟨hpc, hq⟩ := not_or.mp (List.mem_cons.not.mp hq)
  exact same_trans (same_trans (beforeFetch_frame s hq) (jump_frame _ _ hpc)) (endStep_frame _ _ hq)

/-- Settles O7, from the state the Step leaves and the frames of the phases it goes through. -/
theorem unknownOpcodeIsANoOp : Obligations.UnknownOpcodeIsANoOp := by
  intro s w hh hf hw
  refine ⟨_, step_of_noRow hh hf hw, ?_, ?_, ?_, ?_, ?_, ?_, ?_, beforeFetch_jump_endStep_changesOnly s _ _⟩
  · simp
  · simp
  · simp [hh]
  · simp
  · simp [beforeFetch_audioTrigger_iff]
  · simp [beforeFetch_dt_toNat]
  · simp [beforeFetch_st_toNat]

end Sys2Proof.Machine
end

section
/-! The rules of spec/40_step_cycle.md: the phases of a Step around its instruction, what they leave of the timers, the
edge flags and the status, and where the next inputs come from. -/

namespace Sys2Proof.Machine

open Sys2Proof.Spec

variable {s t : State}

/-! ## The frames of the phases (R80, R81, R89) -/

theorem endStep_changesOnly (s : State) (r : Status) : ChangesOnly portItems s (s.endStep r) := by
  intro p hp
  cases p
  case input | pending | draws | status => simp [portItems] at hp
  all_goals simp [Item.same, State.sp_eq]

theorem clearEdges_changesOnly (s : State) : ChangesOnly [.displayDirty, .audioTrigger] s s.clearEdges := by
  intro p hp
  cases p
  case displayDirty | audioTrigger => simp at hp
  all_goals rfl

/-- Two frames one after the other, inside one that lists the items of both. -/
theorem ChangesOnly.trans {u : State} {l l' m : List Item} (h : ChangesOnly l s t) (h' : ChangesOnly l' t u)
    (hl : l ⊆ m) (hl' : l' ⊆ m) : ChangesOnly m s u :=
  fun p hp => same_trans (h p fun hm => hp (hl hm)) (h' p fun hm => hp (hl' hm))

/-! ## One lemma per way a Step goes (R80) -/

theorem haltStatus_of_none (h : s.halt = none) : s.haltStatus = .ok := by
  simp [State.haltStatus, h]

theorem haltStatus_of_some {c : Cause} (h : s.halt = some c) : s.haltStatus = statusOf c := by
  cases c <;> simp [State.haltStatus, h, statusOf]

theorem step_of_halted {c : Cause} (h : s.halt = some c) : step s = .next (s.clearEdges.endStep (statusOf c)) := by
  simp [step, cycle, h, haltStatus_of_some h]

theorem step_of_fetch_none (hh : s.halt = none) (hf : s.fetch = none) :
    step s = .next ((s.beforeFetch.raise .addressFault).endStep .addressFault) := by
  simp [step, cycle, hh, hf]

/-- The word the fetch reads, as a number. -/
theorem fetch_eq_ofNat (h : s.pc.toNat ≤ 0xFFE) : s.fetch =
    some (BitVec.ofNat 16 ((s.mem.read s.pc.toNat).toNat * 256 + (s.mem.read (s.pc.toNat + 1)).toNat)) := by
  rw [State.fetch_of_le h, ← State.wordOfBytes_toNat, BitVec.ofNat_toNat, BitVec.setWidth_eq]

/-- Settles O8, from the state the Step leaves and the frames of phase 1 and of the end of the Step. -/
theorem haltedStepDoesNothing : Obligations.HaltedStepDoesNothing := fun s c h =>
  ⟨_, step_of_halted h, by simp, by simp, by simp,
    (clearEdges_changesOnly s).trans (endStep_changesOnly _ _) (by decide) (by decide)⟩

/-- Settles O9: the fetch reads two bytes or none, and with none the Step raises the fault on what phases 1 to 3
leave. -/
theorem fetchIsBigEndianOrFaults : Obligations.FetchIsBigEndianOrFaults := by
  refine fun s => ⟨fun hp => ⟨_, State.fetch_of_le hp, State.wordOfBytes_toNat _ _⟩, fun hp hh => ?_⟩
  refine ⟨_, step_of_fetch_none hh (State.fetch_of_gt hp), ?_, ?_, ?_, ?_, ?_, ?_, ?_⟩
  · simp
  · simp
  · simp
  · simp [beforeFetch_audioTrigger_iff]
  · simp [beforeFetch_dt_toNat]
  · simp [beforeFetch_st_toNat]
  · intro p hp
    obtain ⟨hh, hp⟩ := not_or.mp (List.mem_cons.not.mp hp)
    exact same_trans (same_trans (beforeFetch_frame s hp) (raise_frame _ _ hh)) (endStep_frame _ _ hp)

/-- Settles O6: the word decodes, so the Step executes the instruction on what phases 1 to 3 leave. -/
theorem stepRunsTheDecodedInstruction : Obligations.StepRunsTheDecodedInstruction := by
  intro s t i hh hp hd he
  rw [← beforeFetch_eq] at he
  have hi : Executes s i := ⟨hh, _, fetch_eq_ofNat hp, hd⟩
  refine ⟨_, step_of_executes hi he, endStep_changesOnly t _, fun hn => ?_, fun c hc => ?_⟩
  · rw [State.endStep_status, haltStatus_of_none hn]
  · rw [State.endStep_status, haltStatus_of_some hc]

/-! ## What no instruction writes, and what only one does (R82, R83, R87) -/

/-- AudioTrigger, the inputs and the status are no instruction's to write. -/
theorem not_mayWrite_of_mem {i : Instr} {p : Item} (hp : p ∈ .audioTrigger :: portItems) : ¬ MayWrite i s p := by
  simp only [portItems, List.mem_cons, List.not_mem_nil, or_false] at hp
  obtain rfl | rfl | rfl | rfl | rfl := hp <;> cases i <;> simp [MayWrite]

theorem eq_of_mayWrite_dt {i : Instr} (h : MayWrite i s .dt) : ∃ x, i = .ldDtVx x := by
  cases i <;> simp_all [MayWrite]

theorem eq_of_mayWrite_st {i : Instr} (h : MayWrite i s .st) : ∃ x, i = .ldStVx x := by
  cases i <;> simp_all [MayWrite]

/-- An item that the instruction executed, if any, may not write is after a Step what phases 1 to 3 left in it. -/
theorem step_same_beforeFetch (h : step s = .next t) (hh : s.halt = none) {p : Item}
    (hp : p ∉ .pc :: .halt :: portItems) (hw : ∀ i, Executes s i → ¬ MayWrite i s.beforeFetch p) :
    p.same s.beforeFetch t := by
  simp only [List.mem_cons, not_or] at hp
  obtain ⟨hpc, hhalt, hp⟩ := hp
  obtain ⟨c, hc, -⟩ | ⟨-, -, e⟩ | ⟨-, -, -, -, e⟩ | ⟨i, u, hi, hu, e⟩ := step_cases s
  · rw [hh] at hc; cases hc
  all_goals
    rw [e] at h
    cases h
    refine same_trans ?_ (endStep_changesOnly _ _ p hp)
  · exact raise_frame _ _ hhalt
  · exact jump_frame _ _ hpc
  · exact exec_frame hu (hw i hi) hhalt

/-! ## The timers and AudioTrigger after a Step (R82, R83) -/

/-- Settles O11: only Fx15 writes DT after its tick. -/
theorem delayTimerTicksEveryStep : Obligations.DelayTimerTicksEveryStep := by
  intro s t hh h
  refine ⟨fun hx => ?_, fun x hx => ?_, fun x hx => ?_⟩
  · have e : t.dt = s.beforeFetch.dt := step_same_beforeFetch h hh (p := .dt) (by decide) fun i hi hw => by
      obtain ⟨x, rfl⟩ := eq_of_mayWrite_dt hw
      exact hx x hi
    rw [e, beforeFetch_dt_toNat]
  · obtain ⟨u, hu, rfl⟩ := step_eq_endStep h hx
    cases hu
    simp
  · obtain ⟨u, hu, rfl⟩ := step_eq_endStep h hx
    cases hu
    simp [val, beforeFetch_dt_toNat]

theorem step_audioTrigger_iff (h : step s = .next t) : t.audioTrigger = true ↔ s.halt = none ∧ s.st.toNat = 1 := by
  cases hh : s.halt with
  | some c =>
    rw [step_of_halted hh] at h
    cases h
    simp
  | none =>
    have e : t.audioTrigger = s.beforeFetch.audioTrigger :=
      step_same_beforeFetch h hh (p := .audioTrigger) (by decide) fun _ _ => not_mayWrite_of_mem (by decide)
    simp [e, beforeFetch_audioTrigger_iff]

/-- Settles O12: no instruction writes AudioTrigger, and only Fx18 writes ST after its tick. -/
theorem audioTriggerMarksTheEndOfSound : Obligations.AudioTriggerMarksTheEndOfSound := by
  intro s t h
  refine ⟨step_audioTrigger_iff h, fun hh hx => ?_, fun x hx => ?_⟩
  · have e : t.st = s.beforeFetch.st := step_same_beforeFetch h hh (p := .st) (by decide) fun i hi hw => by
      obtain ⟨x, rfl⟩ := eq_of_mayWrite_st hw
      exact hx x hi
    rw [e, beforeFetch_st_toNat]
  · obtain ⟨u, hu, rfl⟩ := step_eq_endStep h hx
    cases hu
    simp

/-! ## The inputs of the next Step (R80) -/

/-- A Step ends on a state whose inputs to come are the ones it began with. -/
theorem step_ends (h : step s = .next t) :
    ∃ (u : State) (r : Status), t = u.endStep r ∧ u.pending = s.pending ∧ u.draws = s.draws := by
  obtain ⟨c, -, e⟩ | ⟨-, -, e⟩ | ⟨-, -, -, -, e⟩ | ⟨i, u, -, hu, e⟩ := step_cases s <;> rw [e] at h <;> cases h
  · exact ⟨_, _, rfl, rfl, rfl⟩
  · exact ⟨_, _, rfl, rfl, rfl⟩
  · exact ⟨_, _, rfl, rfl, rfl⟩
  · exact ⟨_, _, rfl, exec_frame hu (p := .pending) (not_mayWrite_of_mem (by decide)) (by decide),
      exec_frame hu (p := .draws) (not_mayWrite_of_mem (by decide)) (by decide)⟩

/-- Settles O22: the end of the Step takes the first pending input, and nothing before it touches them. -/
theorem pendingInputsAreUsedInOrder : Obligations.PendingInputsAreUsedInOrder := by
  intro s t input rest hp h
  obtain ⟨u, r, rfl, hu, hd⟩ := step_ends h
  rw [← hd]
  exact u.endStep_input_of_pending r (hu.trans hp)

/-! ## The status of a Step (R89, R190) -/

/-- The Step from `s` finds an unknown opcode. -/
def FindsUnknown (s : State) : Prop := s.halt = none ∧ ∃ w, s.fetch = some w ∧ NoRow w

theorem not_findsUnknown_of_executes {i : Instr} (hi : Executes s i) : ¬ FindsUnknown s := by
  rintro ⟨-, w, hf, hw⟩
  obtain ⟨-, op, hop, hd⟩ := hi
  rw [hf] at hop
  cases hop
  exact decodeWord_ne_instr_of_noRow hw i hd

/-- The three outcomes of a Step: halted after it, an instruction executed without fault, an unknown opcode. -/
theorem step_outcome (h : step s = .next t) :
    (∃ c, t.halt = some c ∧ t.status = statusOf c ∧ ¬ FindsUnknown s) ∨
    (t.halt = none ∧ t.status = .ok ∧ ∃ i, Executes s i) ∨
    (t.halt = none ∧ t.status = .unknownOpcode ∧ FindsUnknown s) := by
  obtain ⟨c, hc, e⟩ | ⟨-, hf, e⟩ | ⟨hh, op, hf, hd, e⟩ | ⟨i, u, hi, -, e⟩ := step_cases s <;> rw [e] at h <;> cases h
  · exact .inl ⟨c, by simp [hc], by simp [haltStatus_of_some hc], fun hu => by simp [hu.1] at hc⟩
  · exact .inl ⟨.addressFault, by simp, by simp [statusOf], fun ⟨_, w, hw, _⟩ => by simp [hf] at hw⟩
  · exact .inr (.inr ⟨by simp [State.unknownOpcode, hh], by simp, hh, op, hf, (unknownWordsMatchNoRow op).mp hd⟩)
  · cases hc : u.halt with
    | some c => exact .inl ⟨c, by simp [hc], by simp [haltStatus_of_some hc], not_findsUnknown_of_executes hi⟩
    | none => exact .inr (.inl ⟨by simp [hc], by simp [haltStatus_of_none hc], i, hi⟩)

/-! ## No Step reads the status of an earlier one (R89) -/

/-- The state with another status in the model's status field. -/
def State.withStatus (s : State) (r : Status) : State := { s with status := r }

namespace State

variable (s : State) (r : Status)

@[simp] theorem withStatus_i : (s.withStatus r).i = s.i := rfl
@[simp] theorem withStatus_pc : (s.withStatus r).pc = s.pc := rfl
@[simp] theorem withStatus_depth : (s.withStatus r).depth = s.depth := rfl
@[simp] theorem withStatus_mem : (s.withStatus r).mem = s.mem := rfl
@[simp] theorem withStatus_input : (s.withStatus r).input = s.input := rfl
@[simp] theorem getV_withStatus (x : Reg) : (s.withStatus r).getV x = s.getV x := rfl

theorem getVs_withStatus (x : Reg) : (s.withStatus r).getVs x = s.getVs x := rfl

theorem load_withStatus (a n : Nat) : (s.withStatus r).load a n = s.load a n := rfl

theorem setVs_withStatus (k : Nat) (bytes : List Byte) :
    (s.withStatus r).setVs k bytes = (s.setVs k bytes).withStatus r := by
  induction bytes generalizing s k with
  | nil => rfl
  | cons b bs ih => rw [setVs, setVs, ← ih]; split <;> rfl

theorem store_withStatus (a : Nat) (bytes : List Byte) :
    (s.withStatus r).store a bytes = (s.store a bytes).map fun t => t.withStatus r := by
  unfold store; split <;> rfl

theorem push_withStatus (w : Word) : (s.withStatus r).push w = (s.push w).map fun t => t.withStatus r := by
  by_cases h : s.depth.val < 16 <;> simp [push, withStatus, h]

theorem pop_withStatus : (s.withStatus r).pop = s.pop.map fun q => (q.1, q.2.withStatus r) := by
  unfold pop
  rw [withStatus_depth]
  split <;> rfl

end State

/-- What an instruction does commutes with the status. -/
theorem exec_withStatus {i : Instr} (r : Status) (h : exec i s = .next t) :
    exec i (s.withStatus r) = .next (t.withStatus r) := by
  cases i
  case ret =>
    simp only [exec, execRet, State.pop_withStatus] at h ⊢
    split at h <;> cases h <;> simp only [*] <;> rfl
  case call =>
    simp only [exec, execCall, State.push_withStatus, State.withStatus_pc] at h ⊢
    split at h <;> cases h <;> simp only [*] <;> rfl
  case ldB =>
    simp only [exec, execLdB, State.store_withStatus, State.withStatus_i, State.getV_withStatus] at h ⊢
    split at h <;> cases h <;> simp only [*] <;> rfl
  case storeRegs =>
    simp only [exec, execStoreRegs, State.store_withStatus, State.withStatus_i, State.getVs_withStatus] at h ⊢
    split at h <;> cases h <;> simp only [*] <;> rfl
  case loadRegs =>
    simp only [exec, execLoadRegs, State.load_withStatus, State.withStatus_i, State.setVs_withStatus] at h ⊢
    split at h <;> cases h <;> rfl
  case drw =>
    simp only [exec, execDrw, State.load_withStatus, State.withStatus_i, State.getV_withStatus] at h ⊢
    split at h <;> cases h <;> rfl
  case ldVxK =>
    simp only [exec, execLdVxK, State.withStatus_input] at h ⊢
    split at h <;> cases h <;> rfl
  case cls =>
    simp only [exec, execCls, State.withStatus_mem] at h ⊢
    generalize s.mem.writeBytes _ _ = m at h ⊢
    cases h; rfl
  all_goals cases h; rfl

/-- The end of a Step, and so the whole Step, overwrites the status without reading it. -/
theorem step_withStatus (s : State) (r : Status) : step (s.withStatus r) = step s := by
  obtain ⟨c, hc, -⟩ | ⟨hh, hf, e⟩ | ⟨hh, op, hf, hd, e⟩ | ⟨i, u, hi, hu, e⟩ := step_cases s
  · rw [step_of_halted hc, step_of_halted (s := s.withStatus r) hc]
    rfl
  · exact (step_of_fetch_none (s := s.withStatus r) hh hf).trans e.symm
  · have hw := (unknownWordsMatchNoRow op).mp hd
    rw [step_of_noRow hh hf hw, step_of_noRow (s := s.withStatus r) hh hf hw]
    rfl
  · exact (step_of_executes (s := s.withStatus r) hi (exec_withStatus r hu)).trans e.symm

/-- Each outcome of a Step has its own code (R190). -/
theorem statusCode_iff (h : step s = .next t) :
    (t.status.code = 0 ↔ (∃ i, Executes s i) ∧ t.halt = none) ∧
    (t.status.code = 1 ↔ FindsUnknown s) ∧
    (t.status.code = 2 ↔ t.halt = some .stackOverflow) ∧
    (t.status.code = 3 ↔ t.halt = some .stackUnderflow) ∧
    (t.status.code = 4 ↔ t.halt = some .addressFault) := by
  obtain ⟨c, hc, hs, hu⟩ | ⟨hc, hs, hi⟩ | ⟨hc, hs, hu⟩ := step_outcome h
  · cases c <;> simp [hc, hs, statusOf, Status.code, hu]
  · have hu : ¬ FindsUnknown s := hi.elim fun _ => not_findsUnknown_of_executes
    simp [hc, hs, Status.code, hi, hu]
  · have hi : ∀ i, ¬ Executes s i := fun _ hi => not_findsUnknown_of_executes hi hu
    simp [hc, hs, Status.code, hi, hu]

/-- Settles O14: one outcome of a Step, one code; and the status is overwritten, never read. -/
theorem statusTellsTheOutcome : Obligations.StatusTellsTheOutcome := fun s _ h =>
  have ⟨executed, unknown, overflow, underflow, address⟩ := statusCode_iff h
  ⟨executed, unknown, overflow, underflow, address, fun r => (step_withStatus s r).trans h⟩

end Sys2Proof.Machine
end

section
/-! The rules of spec/41_flow_and_skips.md: the stack moves of calls and returns, the exact targets of the jumps, the
register skips, and the loop of a jump to its own address. -/

namespace Sys2Proof.Machine

open Sys2Proof.Spec

variable {s t : State}

/-! ## The words of the statements are the words the encoder builds, one lemma per format (R62) -/

theorem wordNNN_eq_wordNnn (o : BitVec 4) (nnn : Addr12) : wordNNN o nnn = wordNnn o.toNat nnn := by
  rw [wordNnn, ← wordNNN_toNat, BitVec.ofNat_toNat, BitVec.setWidth_eq]

theorem wordXKK_eq_wordXkk (o : BitVec 4) (x : Reg) (kk : Byte) : wordXKK o x kk = wordXkk o.toNat x kk.toNat := by
  rw [wordXkk, ← wordXKK_toNat, BitVec.ofNat_toNat, BitVec.setWidth_eq]

theorem wordXYN_eq_wordXyn (o : BitVec 4) (x y : Reg) (n : BitVec 4) :
    wordXYN o x y n = wordXyn o.toNat x y n.toNat := by
  rw [wordXyn, ← wordXYN_toNat, BitVec.ofNat_toNat, BitVec.setWidth_eq]

/-- A word that is the word of a well-formed instruction decodes to it. -/
theorem decodeWord_of_encode_eq {i : Instr} {w : Word} (e : encode i = w) (h : i.wellFormed = true) :
    decodeWord w = .instr i :=
  e ▸ decodeWord_encode h

/-- A word of family 5 or 9 whose last nibble is not 0 is unknown (R64, R68). -/
theorem decodeWord_wordXyn_unknown {o : BitVec 4} (ho : o = 5 ∨ o = 9) (x y : Reg) {n : Nat} (hn : 0 < n)
    (hn' : n < 16) : decodeWord (wordXyn o.toNat x y n) = .unknown (wordXyn o.toNat x y n) := by
  obtain ⟨m, rfl⟩ : ∃ m : BitVec 4, m.toNat = n := ⟨BitVec.ofNat 4 n, by simp; omega⟩
  have hm : m ≠ 0 := fun e => by simp [e] at hn
  rw [← wordXYN_eq_wordXyn]
  obtain rfl | rfl := ho <;> simpa [decodeWord] using hm

/-! ## Frames: a fault, a jump, an instruction that raises no fault (R195) -/

theorem changesOnly_raise (s : State) (c : Cause) : ChangesOnly [.halt] s (s.raise c) :=
  fun _ hp => raise_frame s c (List.ne_of_not_mem_cons hp)

theorem changesOnly_jump (s : State) (target : Word) : ChangesOnly [.pc] s (s.jump target) :=
  fun _ hp => jump_frame s target (List.ne_of_not_mem_cons hp)

/-- The frame of an instruction that raises no fault: Halt stays too, so only items it may write differ. -/
theorem changesOnly_of_exec {i : Instr} {items : List Item} (h : exec i s = .next t) (hn : ∀ c, ¬ Raises i s c)
    (hw : ∀ p, MayWrite i s p → p ∈ items) : ChangesOnly items s t := by
  intro p hp
  by_cases hh : p = .halt
  · obtain ⟨c, hc, -⟩ | ⟨-, halt⟩ := exec_cases h
    · exact absurd hc (hn c)
    · rw [hh]; exact halt
  · exact exec_frame h (fun hm => hp (hw p hm)) hh

/-! ## The call stack (R100, R102) -/

theorem zext12_toNat (nnn : Addr12) : (zext12 nnn).toNat = nnn.toNat := by
  have := nnn.isLt
  rw [zext12_eq_ofNat, BitVec.toNat_ofNat]
  omega

theorem exec_ret_of_empty (h : s.sp = -1) : exec .ret s = .next (s.raise .stackUnderflow) := by
  simp only [exec, execRet, State.pop_empty h]

theorem exec_ret_of_top {k : Fin 16} (h : s.sp = k.val) :
    ∃ t, exec .ret s = .next t ∧ t.pc = s.stack[k] ∧ t.sp = s.sp - 1 ∧ ChangesOnly [.pc, .sp] s t := by
  have e : exec .ret s = .next ({ s with depth := ⟨k.val, by omega⟩ }.jump s.stack[k]) := by
    simp only [exec, execRet, State.pop_top k h]
  refine ⟨_, e, rfl, ?_, changesOnly_of_exec e (fun c hc => ?_) fun p hp => ?_⟩
  · rw [h]; rfl
  · cases c <;> simp only [Raises] at hc
    omega
  · simpa [MayWrite] using hp

theorem exec_call_of_full (h : s.sp = 15) (nnn : Addr12) :
    exec (.call nnn) s = .next (s.raise .stackOverflow) := by
  simp only [exec, execCall, State.push_full _ h]

theorem exec_call_of_room {k : Fin 16} (h : s.sp + 1 = k.val) (nnn : Addr12) :
    ∃ t, exec (.call nnn) s = .next t ∧ t.pc = zext12 nnn ∧ t.sp = s.sp + 1 ∧ t.stack[k] = s.pc + 2 ∧
      ChangesOnly [.pc, .sp, .stack k] s t := by
  have hk : k.val = s.depth.val := by rw [State.sp_eq] at h; omega
  obtain ⟨hlt, hd, hpush⟩ := State.push_room (s := s) (s.pc + 2) (by omega)
  have e : exec (.call nnn) s = .next ({ s with
      stack := s.stack.set s.depth.val (s.pc + 2) hlt, depth := ⟨s.depth.val + 1, hd⟩ }.jump (zext12 nnn)) := by
    simp only [exec, execCall, hpush]
  refine ⟨_, e, rfl, ?_, ?_, changesOnly_of_exec e (fun c hc => ?_) fun p hp => ?_⟩
  · simp [State.sp_eq]
  · simp [← hk]
  · cases c <;> simp only [Raises] at hc
    omega
  · obtain rfl | rfl | ⟨j, hj, rfl⟩ := hp
    · simp
    · simp
    · obtain rfl : j = k := Fin.ext (by omega)
      simp

/-- Settles O26, by the depth of the stack. -/
theorem returnPopsTheStack : Obligations.ReturnPopsTheStack :=
  ⟨rfl, fun s => ⟨fun h => ⟨_, exec_ret_of_empty h, rfl, changesOnly_raise s _⟩, fun _ => exec_ret_of_top⟩⟩

/-- Settles O27, by the depth of the stack. -/
theorem callPushesTheReturnAddress : Obligations.CallPushesTheReturnAddress := by
  refine fun s nnn => ⟨decodeWord_of_encode_eq (wordNNN_eq_wordNnn 2 nnn) rfl, fun h => ?_, fun k h => ?_⟩
  · exact ⟨_, exec_call_of_full h nnn, rfl, changesOnly_raise s _⟩
  · obtain ⟨t, e, hpc, rest⟩ := exec_call_of_room h nnn
    exact ⟨t, e, by rw [hpc, zext12_toNat], rest⟩

/-- Settles O28: the entry the return pops is the one the call pushed. -/
theorem returnAfterCallComesBack : Obligations.ReturnAfterCallComesBack := by
  intro s t u nnn hsp he hstack hdepth
  obtain ⟨k, hk⟩ : ∃ k : Fin 16, s.sp + 1 = k.val := by
    have := s.sp_range
    exact ⟨⟨(s.sp + 1).toNat, by omega⟩, by simp only; omega⟩
  obtain ⟨t', he', -, htsp, hpushed, -⟩ := exec_call_of_room hk nnn
  obtain rfl : t = t' := by rw [he] at he'; cases he'; rfl
  obtain ⟨w, hw, hpc, hwsp, frame⟩ := exec_ret_of_top (s := u) (k := k) (by omega)
  exact ⟨w, hw, by rw [hpc, hstack, hpushed], by omega, frame⟩

/-! ## The jumps (R101, R103) -/

theorem fetch_eq_none_iff (s : State) : s.fetch = none ↔ 0xFFE < s.pc.toNat := by
  refine ⟨fun h => ?_, State.fetch_of_gt⟩
  by_contra hc
  rw [State.fetch_of_le (by omega)] at h
  cases h

/-- The sum of a 12-bit address and a byte does not wrap at 65536. -/
theorem zext12_add_zext8_toNat (nnn : Addr12) (b : Byte) : (zext12 nnn + zext8 b).toNat = nnn.toNat + b.toNat := by
  have := nnn.isLt
  have := b.isLt
  rw [zext12_eq_ofNat, zext8_eq_ofNat, BitVec.toNat_add, BitVec.toNat_ofNat, BitVec.toNat_ofNat]
  omega

/-- Settles O29: each target as a number, and the fetch bound at it. -/
theorem jumpsSetTheExactTarget : Obligations.JumpsSetTheExactTarget := by
  refine fun s nnn => ⟨decodeWord_of_encode_eq (wordNNN_eq_wordNnn 1 nnn) rfl,
    decodeWord_of_encode_eq (wordNNN_eq_wordNnn 0xB nnn) rfl,
    ⟨_, rfl, zext12_toNat nnn, changesOnly_jump s _, ?_⟩,
    ⟨_, rfl, zext12_add_zext8_toNat nnn _, changesOnly_jump s _, ?_⟩⟩
  · have := nnn.isLt
    rw [fetch_eq_none_iff, State.jump_pc, zext12_toNat]
    omega
  · rw [fetch_eq_none_iff, State.jump_pc, zext12_add_zext8_toNat, val]

/-! ## The register skips (R104 to R107) -/

/-- What an instruction that skips on a condition leaves. -/
theorem exec_skip {i : Instr} {taken : Bool} {P : Prop} [Decidable P] (h : exec i s = .next (s.skipIf taken))
    (hp : taken = true ↔ P) :
    ∃ t, exec i s = .next t ∧ ChangesOnly [.pc] s t ∧ t.pc = if P then s.pc + 4 else s.pc + 2 :=
  ⟨_, h, changesOnly_jump s _, if_congr hp rfl rfl⟩

/-- The same for a skip on the negation of the condition. -/
theorem exec_skip_not {i : Instr} {taken : Bool} {P : Prop} [Decidable P] (h : exec i s = .next (s.skipIf taken))
    (hp : taken = true ↔ ¬ P) :
    ∃ t, exec i s = .next t ∧ ChangesOnly [.pc] s t ∧ t.pc = if P then s.pc + 2 else s.pc + 4 := by
  simpa only [ite_not] using exec_skip h hp

theorem beq_iff_toNat_eq (a b : Byte) : (a == b) = true ↔ a.toNat = b.toNat := beq_iff_eq.trans BitVec.toNat_inj.symm

theorem bne_iff_toNat_ne (a b : Byte) : (a != b) = true ↔ ¬ a.toNat = b.toNat :=
  bne_iff_ne.trans BitVec.toNat_inj.symm.not

/-- Settles O30: the four words and their neighbours by the decoder, the four meanings by their conditions. -/
theorem registerSkips : Obligations.RegisterSkips := fun _ x y kk =>
  ⟨decodeWord_of_encode_eq (wordXKK_eq_wordXkk 3 x kk) rfl, decodeWord_of_encode_eq (wordXKK_eq_wordXkk 4 x kk) rfl,
    decodeWord_of_encode_eq (wordXYN_eq_wordXyn 5 x y 0) rfl, decodeWord_of_encode_eq (wordXYN_eq_wordXyn 9 x y 0) rfl,
    fun _ hn hn' =>
      ⟨decodeWord_wordXyn_unknown (.inl rfl) x y hn hn', decodeWord_wordXyn_unknown (.inr rfl) x y hn hn'⟩,
    exec_skip rfl (beq_iff_toNat_eq _ _), exec_skip_not rfl (bne_iff_toNat_ne _ _),
    exec_skip rfl (beq_iff_toNat_eq _ _), exec_skip_not rfl (bne_iff_toNat_ne _ _)⟩

/-! ## A jump to its own address (R101, R213) -/

/-- Such a Step is phases 1 to 3 and the end of the Step: the jump leaves PC where it was. -/
theorem step_of_jump_to_self {nnn : Addr12} (hi : Executes s (.jp nnn)) (hpc : nnn.toNat = s.pc.toNat) :
    step s = .next (s.beforeFetch.endStep .ok) := by
  have target : zext12 nnn = s.pc := BitVec.eq_of_toNat_eq ((zext12_toNat nnn).trans hpc)
  have e : exec (.jp nnn) s.beforeFetch = .next s.beforeFetch := by
    simp only [exec, execJp, target]
    rfl
  rw [step_of_executes hi e, haltStatus_of_none (s := s.beforeFetch) hi.1]

theorem beforeFetch_endStep_changesOnly (s : State) (r : Status) :
    ChangesOnly stepItems s (s.beforeFetch.endStep r) :=
  fun _ hp => same_trans (beforeFetch_frame s hp) (endStep_frame _ r hp)

/-- What a Step executes depends on Halt, PC and memory alone. -/
theorem Executes.congr {i : Instr} (hi : Executes s i) (hh : t.halt = s.halt) (hp : t.pc = s.pc) (hm : t.mem = s.mem) :
    Executes t i := by
  obtain ⟨halt, op, hf, hd⟩ := hi
  exact ⟨hh.trans halt, op, (State.fetch_congr hp hm).trans hf, hd⟩

/-- Settles O32, by induction on the number of Steps from any state that jumps to itself: the first Step leaves such a
state with each timer one lower. -/
theorem jumpToSelfLoopsWhileTimersTick : Obligations.JumpToSelfLoopsWhileTimersTick := by
  intro k
  induction k with
  | zero =>
    intro s nnn hi _
    exact ⟨s, rfl, rfl, hi.1, rfl, rfl, fun h => absurd h (Nat.lt_irrefl 0), changesOnly_refl _ s⟩
  | succ k ih =>
    intro s nnn hi hpc
    have firstStep := step_of_jump_to_self hi hpc
    have frame := beforeFetch_endStep_changesOnly s .ok
    have again : Executes (s.beforeFetch.endStep .ok) (.jp nnn) := hi.congr (by simp) (by simp) (by simp)
    have dt : (s.beforeFetch.endStep .ok).dt.toNat = s.dt.toNat - 1 := by simp [beforeFetch_dt_toNat]
    have st : (s.beforeFetch.endStep .ok).st.toNat = s.st.toNat - 1 := by simp [beforeFetch_st_toNat]
    have pc : (s.beforeFetch.endStep .ok).pc = s.pc := by simp
    have trigger := step_audioTrigger_iff firstStep
    generalize s.beforeFetch.endStep .ok = t at firstStep frame again dt st pc trigger
    obtain ⟨u, run, upc, uhalt, udt, ust, utrigger, uframe⟩ := ih t nnn again (pc ▸ hpc)
    refine ⟨u, (core_run_succ firstStep).trans run, upc.trans pc, uhalt, by omega, by omega, fun _ => ?_,
      frame.trans uframe (List.Subset.refl _) (List.Subset.refl _)⟩
    cases k with
    | zero =>
      cases run
      rw [trigger]
      exact and_iff_right hi.1
    | succ k =>
      rw [utrigger (Nat.succ_pos k), st]
      omega

end Sys2Proof.Machine
end

section
/-! The rules of spec/42_load_alu_random.md: the loads, the arithmetic and logic family with its flags, and the random
instruction. -/

namespace Sys2Proof.Machine

open Sys2Proof.Spec

variable {s : State}

/-! ## A straight-line instruction that writes one register (R120 to R127, R133) -/

theorem getV_setV_advance_same (s : State) (x : Reg) (b : Byte) : (s.setV x b).advance.getV x = b :=
  s.getV_setV_same x b

theorem changesOnly_setV_advance (s : State) (x : Reg) (b : Byte) :
    ChangesOnly [.v x, .pc] s (s.setV x b).advance :=
  fun p hp => setV_jump_frame s x b _ (by rintro rfl; simp at hp) (by rintro rfl; simp at hp)

/-- Such an instruction, when its result is given by its bits. -/
theorem exec_setV_bits {i : Instr} {x : Reg} {b : Byte} {bit : Nat → Bool}
    (h : exec i s = .next (s.setV x b).advance) (hb : ∀ k, b.getLsbD k = bit k) :
    ∃ t, exec i s = .next t ∧ t.pc = s.pc + 2 ∧ ChangesOnly [.v x, .pc] s t ∧ ∀ k, (t.getV x).getLsbD k = bit k :=
  ⟨_, h, rfl, changesOnly_setV_advance s x b, fun k => by rw [getV_setV_advance_same, hb]⟩

/-- Settles O33: the sum of bytes is the sum of numbers modulo 256. -/
theorem immediateLoadAndAdd : Obligations.ImmediateLoadAndAdd := fun s x kk =>
  ⟨decodeWord_of_encode_eq (wordXKK_eq_wordXkk 6 x kk) rfl, decodeWord_of_encode_eq (wordXKK_eq_wordXkk 7 x kk) rfl,
    ⟨_, rfl, getV_setV_advance_same s x kk, rfl, changesOnly_setV_advance s x kk⟩,
    ⟨_, rfl, by rw [val, getV_setV_advance_same, BitVec.toNat_add]; rfl, rfl, changesOnly_setV_advance s x _⟩⟩

/-- Settles O34, bit by bit. -/
theorem assignAndLogic : Obligations.AssignAndLogic := fun s x y =>
  ⟨decodeWord_of_encode_eq (wordXYN_eq_wordXyn 8 x y 0) rfl, decodeWord_of_encode_eq (wordXYN_eq_wordXyn 8 x y 1) rfl,
    decodeWord_of_encode_eq (wordXYN_eq_wordXyn 8 x y 2) rfl, decodeWord_of_encode_eq (wordXYN_eq_wordXyn 8 x y 3) rfl,
    ⟨_, rfl, getV_setV_advance_same s x _, rfl, changesOnly_setV_advance s x _⟩,
    exec_setV_bits rfl fun _ => BitVec.getLsbD_or, exec_setV_bits rfl fun _ => BitVec.getLsbD_and,
    exec_setV_bits rfl fun _ => BitVec.getLsbD_xor⟩

/-- Settles O38: the random byte is the input of the Step. -/
theorem randomIsTheInputByteMasked : Obligations.RandomIsTheInputByteMasked := fun _ x kk =>
  ⟨decodeWord_of_encode_eq (wordXKK_eq_wordXkk 0xC x kk) rfl, exec_setV_bits rfl fun _ => BitVec.getLsbD_and⟩

/-! ## The flags as numbers (R11, R26) -/

theorem flagByte_toNat (f : Bool) : (flagByte f).toNat = f.toNat := by cases f <;> rfl

theorem flagByte_decide_toNat (p : Prop) [Decidable p] : (flagByte (decide p)).toNat = if p then 1 else 0 := by
  by_cases h : p <;> simp [flagByte, h]

theorem carryFlag_toNat (a b : Byte) : (carryFlag a b).toNat = if 255 < a.toNat + b.toNat then 1 else 0 :=
  flagByte_decide_toNat _

theorem notBorrowFlag_toNat (a b : Byte) : (notBorrowFlag a b).toNat = if a.toNat < b.toNat then 0 else 1 := by
  rw [notBorrowFlag, flagByte_decide_toNat]
  simp only [← Nat.not_lt, ite_not]

/-- Bit 0 of a byte is its remainder by 2. -/
theorem shrFlag_toNat (a : Byte) : (shrFlag a).toNat = a.toNat % 2 := by
  rw [shrFlag, flagByte_toNat, BitVec.getLsbD, Nat.toNat_testBit, pow_zero, Nat.div_one]

/-- Bit 7 of a byte is its quotient by 128, since a byte is below 256. -/
theorem shlFlag_toNat (a : Byte) : (shlFlag a).toNat = a.toNat / 128 := by
  have := a.isLt
  rw [shlFlag, flagByte_toNat, BitVec.getLsbD, Nat.toNat_testBit]
  omega

/-! ## A straight-line instruction that writes one register and then VF (R123) -/

theorem getV_setVAndFlag_vf (s : State) (x : Reg) (b f : Byte) : (s.setVAndFlag x b f).getV 15 = f :=
  State.getV_setV_same _ 15 f

theorem getV_setVAndFlag_of_ne (s : State) {x : Reg} (b f : Byte) (h : x ≠ 15) : (s.setVAndFlag x b f).getV x = b :=
  (State.getV_setV_ne _ f h).trans (s.getV_setV_same x b)

theorem changesOnly_setVAndFlag_advance (s : State) (x : Reg) (b f : Byte) :
    ChangesOnly [.v x, .v 15, .pc] s (s.setVAndFlag x b f).advance :=
  fun p hp => setVAndFlag_jump_frame s x b f _ (by rintro rfl; simp at hp) (by rintro rfl; simp at hp)
    (by rintro rfl; simp at hp)

/-- Such an instruction, when its result and its flag are given as numbers: the flag is written last, so with x = F it
remains. -/
theorem exec_setVAndFlag {i : Instr} {x : Reg} {b f : Byte} {result flag : Nat}
    (h : exec i s = .next (s.setVAndFlag x b f).advance) (hb : b.toNat = result) (hf : f.toNat = flag) :
    ∃ t, exec i s = .next t ∧ t.pc = s.pc + 2 ∧ ChangesOnly [.v x, .v 15, .pc] s t ∧
      (x ≠ 15 → val t x = result) ∧ val t 15 = flag :=
  ⟨_, h, rfl, changesOnly_setVAndFlag_advance s x b f,
    fun hx => (congrArg BitVec.toNat (getV_setVAndFlag_of_ne s b f hx)).trans hb,
    (congrArg BitVec.toNat (getV_setVAndFlag_vf s x b f)).trans hf⟩

/-- Settles O35: the sum of bytes is the sum of numbers modulo 256. -/
theorem addSetsTheCarry : Obligations.AddSetsTheCarry := fun _ x y =>
  ⟨decodeWord_of_encode_eq (wordXYN_eq_wordXyn 8 x y 4) rfl,
    exec_setVAndFlag rfl (BitVec.toNat_add _ _) (carryFlag_toNat _ _)⟩

/-- The difference of bytes, with 256 added first so that the subtraction of numbers never truncates. -/
theorem byte_sub_toNat (a b : Byte) : (a - b).toNat = (256 + a.toNat - b.toNat) % 256 := by
  have := b.isLt
  rw [BitVec.toNat_sub]
  omega

/-- Settles O36: SUBN is SUB with the operands exchanged. -/
theorem subtractionsSetNotBorrow : Obligations.SubtractionsSetNotBorrow := fun _ x y =>
  ⟨decodeWord_of_encode_eq (wordXYN_eq_wordXyn 8 x y 5) rfl, decodeWord_of_encode_eq (wordXYN_eq_wordXyn 8 x y 7) rfl,
    exec_setVAndFlag rfl (byte_sub_toNat _ _) (notBorrowFlag_toNat _ _),
    exec_setVAndFlag rfl (byte_sub_toNat _ _) (notBorrowFlag_toNat _ _)⟩

theorem byte_shiftRight_one_toNat (a : Byte) : (a >>> 1).toNat = a.toNat / 2 := by
  rw [BitVec.toNat_ushiftRight, Nat.shiftRight_one]

theorem byte_shiftLeft_one_toNat (a : Byte) : (a <<< 1).toNat = a.toNat * 2 % 256 := by
  rw [BitVec.toNat_shiftLeft, Nat.shiftLeft_eq, pow_one]

/-- Settles O37: the shifts by one halve and double, and the bit shifted out is the remainder or the quotient. -/
theorem shiftsSetTheBitShiftedOut : Obligations.ShiftsSetTheBitShiftedOut := fun _ x y =>
  ⟨decodeWord_of_encode_eq (wordXYN_eq_wordXyn 8 x y 6) rfl, decodeWord_of_encode_eq (wordXYN_eq_wordXyn 8 x y 0xE) rfl,
    exec_setVAndFlag rfl (byte_shiftRight_one_toNat _) (shrFlag_toNat _),
    exec_setVAndFlag rfl (byte_shiftLeft_one_toNat _) (shlFlag_toNat _)⟩

end Sys2Proof.Machine
end

section
/-! The rules of spec/43_index_and_memory.md: the writes of I, the digits of LD B, and the dump and the load of
registers, each with its address fault. -/

namespace Sys2Proof.Machine

open Sys2Proof.Spec

variable {s t : State}

/-! ## The address fault (R193, R195) -/

/-- An instruction that raises an address fault raises no other. -/
theorem eq_addressFault_of_raises {i : Instr} {c : Cause} (h : Raises i s .addressFault) (hc : Raises i s c) :
    c = .addressFault := by
  cases i
  case ldB | storeRegs | loadRegs | drw =>
    cases c
    case addressFault => rfl
    all_goals exact hc.elim
  all_goals exact h.elim

theorem exec_of_addressFault {i : Instr} (h : Raises i s .addressFault) :
    ∃ t, exec i s = .next t ∧ t.halt = some .addressFault ∧ ChangesOnly [.halt] s t := by
  obtain ⟨t, ht⟩ := exec_next i s
  obtain ⟨c, hc, rfl⟩ | ⟨hn, -⟩ := exec_cases ht
  · obtain rfl := eq_addressFault_of_raises h hc
    exact ⟨_, ht, rfl, changesOnly_raise s _⟩
  · exact absurd h (hn _)

/-! ## A store in range, with PC moved on (R52, R53, R164) -/

theorem mem_memItems {a n : Nat} {p : Item} : p ∈ memItems a n ↔ ∃ k, k < n ∧ p = .mem (a + k) := by
  simp only [memItems, List.mem_map, List.mem_range, eq_comm]

/-- Byte `k` lands at address `a + k`, DisplayDirty is set when one of the addresses lies in the framebuffer, and no
other item differs. -/
theorem store_advance_of_le {a : Nat} {bytes : List Byte} (h : a + bytes.length ≤ 0x1000) :
    ∃ u, s.store a bytes = some u ∧ u.advance.pc = s.pc + 2 ∧
      (∀ k (hk : k < bytes.length), u.advance.mem.read (a + k) = bytes[k]) ∧
      (u.advance.displayDirty = true ↔ s.displayDirty = true ∨ ∃ k, k < bytes.length ∧ InFb (a + k)) ∧
      ChangesOnly ([.pc, .displayDirty] ++ memItems a bytes.length) s u.advance := by
  have hu := State.store_of_inRange (s := s) ((inRange_iff a bytes.length).mpr (.inr h))
  have hdirty := State.store_displayDirty hu
  refine ⟨_, hu, rfl, Memory.read_writeBytes_inside bytes s.mem a, hdirty, fun p hp => ?_⟩
  simp only [List.mem_append, List.mem_cons, List.not_mem_nil, or_false, mem_memItems, not_or, not_exists,
    not_and] at hp
  obtain ⟨⟨hpc, hdisplay⟩, hmem⟩ := hp
  exact store_jump_frame s a bytes _ _ hpc hdisplay hmem

/-! ## The decimal digits (R143) -/

/-- The digits as numbers: each is below 256, so its byte holds it whole. -/
theorem bcdDigits_toNat (b : Byte) : (bcdDigits b)[0].toNat = b.toNat / 100 ∧
    (bcdDigits b)[1].toNat = b.toNat / 10 % 10 ∧ (bcdDigits b)[2].toNat = b.toNat % 10 := by
  have := b.isLt
  simp only [bcdDigits, List.getElem_cons_zero, List.getElem_cons_succ, BitVec.toNat_ofNat]
  omega

/-- Settles O40: the digits are a store of three bytes. -/
theorem bcdStoresThreeDigits : Obligations.BcdStoresThreeDigits := by
  refine fun s x => ⟨decodeWord_of_encode_eq (wordXKK_eq_wordXkk 0xF x 0x33) rfl, fun h => ?_, fun h => ?_⟩
  · obtain ⟨u, hu, hpc, hread, hdirty, hframe⟩ :=
      store_advance_of_le (s := s) (a := s.i.toNat) (bytes := bcdDigits (s.getV x))
        (by rw [State.length_bcdDigits]; omega)
    have he : exec (.ldB x) s = .next u.advance := by simp only [exec, execLdB, hu]
    obtain ⟨hundreds, tens, ones⟩ := bcdDigits_toNat (s.getV x)
    exact ⟨_, he, hpc, (congrArg BitVec.toNat (hread 0 (by simp))).trans hundreds,
      (congrArg BitVec.toNat (hread 1 (by simp))).trans tens, (congrArg BitVec.toNat (hread 2 (by simp))).trans ones,
      hdirty, hframe⟩
  · exact exec_of_addressFault (show 0xFFF < s.i.toNat + 2 by omega)

/-! ## The dump of registers (R144) -/

/-- Settles O41: the registers dumped are a store of x + 1 bytes. -/
theorem registerDumpStoresV0ToVx : Obligations.RegisterDumpStoresV0ToVx := by
  refine fun s x => ⟨decodeWord_of_encode_eq (wordXKK_eq_wordXkk 0xF x 0x55) rfl, fun h => ?_,
    fun h => exec_of_addressFault h⟩
  obtain ⟨u, hu, hpc, -, hdirty, hframe⟩ :=
    store_advance_of_le (s := s) (a := s.i.toNat) (bytes := s.getVs x) (by rw [State.length_getVs]; omega)
  have he : exec (.storeRegs x) s = .next u.advance := by simp only [exec, execStoreRegs, hu]
  rw [State.length_getVs] at hdirty hframe
  simp only [Nat.lt_succ_iff] at hdirty
  exact ⟨_, he, hpc, fun k => read_of_exec_storeRegs h he, hdirty, hframe⟩

/-! ## The load of registers (R145) -/

theorem mem_regItems {x : Reg} {p : Item} : p ∈ regItems x ↔ ∃ k, k ≤ x ∧ p = .v k := by
  simp [regItems, eq_comm]

/-- The state a load in range leaves. -/
theorem exec_loadRegs_of_le {x : Reg} (h : s.i.toNat + x.val ≤ 0xFFF) :
    exec (.loadRegs x) s = .next (s.setVs 0 (s.mem.readBytes s.i.toNat (x.val + 1))).advance := by
  have hr : inRange s.i.toNat (x.val + 1) = true := by
    rw [inRange_iff]
    omega
  simp only [exec, execLoadRegs, State.load_of_inRange hr]

/-- Each register loaded holds the byte at its own address. -/
theorem getV_setVs_readBytes (s : State) (m : Memory) (a : Nat) {x k : Reg} (hk : k ≤ x) :
    (s.setVs 0 (m.readBytes a (x.val + 1))).getV k = m.read (a + k.val) := by
  have hlt : k.val < x.val + 1 := Nat.lt_succ_of_le hk
  rw [State.getV_setVs, dif_pos (by simpa using hlt)]
  exact Memory.getElem_readBytes m a _ k.val hlt

/-- Settles O42: the bytes loaded are the x + 1 from I upward. -/
theorem registerLoadReadsV0ToVx : Obligations.RegisterLoadReadsV0ToVx := by
  refine fun s x => ⟨decodeWord_of_encode_eq (wordXKK_eq_wordXkk 0xF x 0x65) rfl, fun h => ?_,
    fun h => exec_of_addressFault h⟩
  have he := exec_loadRegs_of_le h
  refine ⟨_, he, by simp, fun _ => getV_setVs_readBytes s s.mem s.i.toNat, changesOnly_of_exec he (fun c hc => ?_)
    fun p hp => ?_⟩
  · cases c <;> simp only [Raises] at hc
    omega
  · exact List.mem_cons.mpr (hp.imp_right mem_regItems.mpr)

/-- Settles O43: the load reads each register at the address the dump stored it at, because a dump leaves I. -/
theorem loadAfterDumpRestoresRegisters : Obligations.LoadAfterDumpRestoresRegisters := by
  intro s t u x h he hmem hi
  have hti : t.i = s.i := exec_frame (p := .i) he (by simp [MayWrite]) (by simp)
  have hui : u.i.toNat = s.i.toNat := by rw [hi, hti]
  refine ⟨_, exec_loadRegs_of_le (by omega), fun k hk => ?_⟩
  calc
    _ = u.mem.read (u.i.toNat + k.val) := getV_setVs_readBytes u u.mem u.i.toNat hk
    _ = t.mem.read (s.i.toNat + k.val) := by rw [hmem, hui]
    _ = s.getV k := read_of_exec_storeRegs h he hk

/-! ## The index register (R140 to R142) -/

theorem zext8_toNat (b : Byte) : (zext8 b).toNat = b.toNat := by
  have := b.isLt
  rw [zext8_eq_ofNat, BitVec.toNat_ofNat]
  omega

/-- The glyph address of a whole byte does not wrap at 65536. -/
theorem glyphAddr_toNat (b : Byte) : (glyphAddr b).toNat = 0x050 + 5 * b.toNat := by
  have := b.isLt
  have := zext8_toNat b
  rw [glyphAddr, Config.fontBase]
  bv_omega

/-- An instruction that writes I and moves on, when the value is given as a number. -/
theorem exec_writeI {i : Instr} {w : Word} {n : Nat} (h : exec i s = .next ({ s with i := w } : State).advance)
    (hw : w.toNat = n) :
    ∃ t, exec i s = .next t ∧ t.i.toNat = n ∧ t.pc = s.pc + 2 ∧ ChangesOnly [.i, .pc] s t := by
  refine ⟨_, h, hw, rfl, fun p hp => ?_⟩
  cases p
  case i => simp at hp
  case pc => simp at hp
  all_goals rfl

/-- Settles O39: each value of I as a number. -/
theorem indexRegisterWrites : Obligations.IndexRegisterWrites := fun s x nnn =>
  ⟨decodeWord_of_encode_eq (wordNNN_eq_wordNnn 0xA nnn) rfl,
    decodeWord_of_encode_eq (wordXKK_eq_wordXkk 0xF x 0x1E) rfl,
    decodeWord_of_encode_eq (wordXKK_eq_wordXkk 0xF x 0x29) rfl,
    exec_writeI rfl (zext12_toNat nnn), exec_writeI rfl (by rw [BitVec.toNat_add, zext8_toNat, val]),
    exec_writeI rfl (glyphAddr_toNat (s.getV x))⟩

end Sys2Proof.Machine
end

section
/-! The rules of spec/44_display.md: which Steps set DisplayDirty, the cleared framebuffer, one draw, and a second draw
at the same place. -/

namespace Sys2Proof.Machine

open Sys2Proof.Spec

variable {s t : State}

/-! ## Which Steps write the framebuffer (R164) -/

theorem exec_displayDirty_iff {i : Instr} (h : exec i s = .next t) (hn : ∀ c, ¬ Raises i s c) :
    t.displayDirty = true ↔ s.displayDirty = true ∨ WritesFb s i := by
  have dirty := exec_displayDirty h hn
  cases i <;> exact dirty

theorem writesFb_beforeFetch (s : State) (i : Instr) : WritesFb s.beforeFetch i ↔ WritesFb s i := by
  cases i <;> rfl

theorem writesFb_of_mayWrite_mem {i : Instr} {a : Nat} (ha : InFb a) (h : MayWrite i s (.mem a)) : WritesFb s i := by
  obtain rfl | ⟨x, y, n, rfl⟩ | ⟨x, rfl⟩ | ⟨x, rfl⟩ := eq_of_mayWrite_mem h
  · trivial
  · trivial
  all_goals
    obtain hpc | hdirty | ⟨k, hk, e⟩ := h
    · cases hpc
    · cases hdirty
    · cases e
      exact ⟨k, hk, ha⟩

/-- A Step executes an instruction without fault, or it leaves DisplayDirty clear and memory as it was (R68, R81,
R195). -/
theorem step_completes_or_writes_nothing (h : step s = .next t) :
    (∃ i u, Executes s i ∧ t.halt = none ∧ exec i s.beforeFetch = .next u ∧ (∀ c, ¬ Raises i s.beforeFetch c) ∧
      t.displayDirty = u.displayDirty ∧ t.mem = u.mem) ∨
    ((∀ i, Executes s i → t.halt ≠ none) ∧ t.displayDirty = false ∧ t.mem = s.mem) := by
  obtain ⟨c, hc, e⟩ | ⟨-, -, e⟩ | ⟨-, op, hf, hd, e⟩ | ⟨i, u, hi, hu, e⟩ := step_cases s <;> rw [e] at h <;> cases h
  · exact .inr ⟨fun _ _ => by simp [hc], by simp, by simp⟩
  · exact .inr ⟨fun _ _ => by simp, by simp, by simp⟩
  · refine .inr ⟨fun i hi => ?_, by simp [State.unknownOpcode], by simp [State.unknownOpcode]⟩
    exact absurd ⟨hi.1, op, hf, (unknownWordsMatchNoRow op).mp hd⟩ (not_findsUnknown_of_executes hi)
  · obtain ⟨c, -, rfl⟩ | ⟨hn, halt⟩ := exec_cases hu
    · exact .inr ⟨fun _ _ => by simp, by simp, by simp⟩
    · exact .inl ⟨i, u, hi, by simp [halt, hi.1], hu, hn, by simp, by simp⟩

/-- Settles O13: a Step that completes an instruction marks what the instruction writes, and any other writes nothing. -/
theorem displayDirtyMarksFramebufferWrites : Obligations.DisplayDirtyMarksFramebufferWrites := by
  intro s t h
  obtain ⟨i, u, hi, hh, hu, hn, hdirty, hmem⟩ | ⟨hfault, hdirty, hmem⟩ := step_completes_or_writes_nothing h
  · have marks : t.displayDirty = true ↔ WritesFb s i := by
      rw [hdirty, exec_displayDirty_iff hu hn, writesFb_beforeFetch]
      simp
    refine ⟨marks.trans ⟨fun hw => ⟨i, hi, hw, hh⟩, fun ⟨j, hj, hw, _⟩ => executes_unique hj hi ▸ hw⟩,
      fun a ha hc => marks.mpr ?_⟩
    rw [← writesFb_beforeFetch]
    refine writesFb_of_mayWrite_mem ha ?_
    by_contra hw
    exact hc (hmem ▸ exec_frame (p := .mem a) hu hw (by simp))
  · refine ⟨⟨fun hd => ?_, fun ⟨i, hi, _, hh⟩ => absurd hh (hfault i hi)⟩, fun a _ hc => absurd (by rw [hmem]) hc⟩
    rw [hdirty] at hd
    cases hd

/-! ## Clearing (R160) -/

/-- Settles O45: the meaning is a store of 256 zero bytes. -/
theorem clearZeroesTheFramebuffer : Obligations.ClearZeroesTheFramebuffer := by
  refine ⟨decodeWord_encode (i := .cls) rfl, fun s => ?_⟩
  obtain ⟨bytes, hlen, hzero, e⟩ := exec_cls s
  refine ⟨_, e, rfl, rfl, fun a ha => ?_, changesOnly_of_exec e (fun c hc => ?_) fun p hp => ?_⟩
  · have inside : 0x0A0 ≤ a ∧ a < 0x0A0 + bytes.length := by unfold InFb at ha; omega
    rw [State.jump_mem, Memory.read_writeBytes, dif_pos inside]
    exact hzero _ (List.getElem_mem _)
  · cases c <;> exact hc
  · obtain rfl | rfl | ⟨a, rfl, hlo, hhi⟩ := hp
    · simp
    · simp
    · exact List.mem_append_right _ (mem_memItems.mpr ⟨a - 0x0A0, by omega, congrArg Item.mem (by omega)⟩)

/-! ## The sprite of a draw (R161, R162) -/

/-- The screen pixels a Dxyn at `s` toggles, in drawing order. -/
def spriteAt (s : State) (x y : Reg) (n : Nat) : List (Nat × Nat) :=
  spritePixels (s.getV x).toNat (s.getV y).toNat (s.mem.readBytes s.i.toNat n)

section

variable {x y : Reg} {n px py : Nat}

theorem mem_spriteAt {p : Nat × Nat} : p ∈ spriteAt s x y n ↔ ∃ r c, r < n ∧ c < 8 ∧ spriteBit s r c = true ∧
    p = ((val s x + c) % 64, (val s y + r) % 32) := by
  rw [spriteAt, mem_spritePixels]
  refine exists_congr fun r => exists_congr fun c => ?_
  simp only [Memory.length_readBytes]
  constructor
  · rintro ⟨hr, hc, hb, rfl⟩
    exact ⟨hr, hc, by rwa [Memory.getElem_readBytes _ _ _ _ hr] at hb, rfl⟩
  · rintro ⟨hr, hc, hb, rfl⟩
    exact ⟨hr, hc, by rwa [Memory.getElem_readBytes _ _ _ _ hr], rfl⟩

theorem toggles_iff : toggles s x y n px py = true ↔ (px, py) ∈ spriteAt s x y n := by
  rw [mem_spriteAt]
  simp only [toggles, List.any_eq_true, List.mem_range, Bool.and_eq_true, beq_iff_eq, Prod.mk.injEq]
  exact ⟨fun ⟨r, hr, c, hc, ⟨hb, hx⟩, hy⟩ => ⟨r, c, hr, hc, hb, hx, hy⟩,
    fun ⟨r, c, hr, hc, hb, hx, hy⟩ => ⟨r, hr, c, hc, ⟨hb, hx⟩, hy⟩⟩

theorem toggles_eq_decide : toggles s x y n px py = decide ((px, py) ∈ spriteAt s x y n) := by
  rw [Bool.eq_iff_iff, toggles_iff, decide_eq_true_iff]

theorem nodup_spriteAt (hn : n ≤ 15) : (spriteAt s x y n).Nodup :=
  nodup_spritePixels _ (by rw [Memory.length_readBytes]; omega)

theorem spriteAt_bounds {p : Nat × Nat} (h : p ∈ spriteAt s x y n) : p.1 < 64 ∧ p.2 < 32 := spritePixels_bounds _ h

/-- The bytes of the pixels toggled are the memory items the statement lists. -/
theorem mem_drawnItems {p : Nat × Nat} (h : p ∈ spriteAt s x y n) :
    .mem (pixelAddr p.1 p.2) ∈ drawnItems s x y n := by
  obtain ⟨r, c, hr, hc, hb, rfl⟩ := mem_spriteAt.mp h
  simp only [drawnItems, List.mem_flatMap, List.mem_map, List.mem_filter, List.mem_range]
  exact ⟨r, hr, c, ⟨hc, hb⟩, rfl⟩

/-- An existential over the screen is one over the pixels of the sprite. -/
theorem exists_toggles_iff {P : Nat → Nat → Prop} :
    (∃ px py, px < 64 ∧ py < 32 ∧ toggles s x y n px py = true ∧ P px py) ↔ ∃ p ∈ spriteAt s x y n, P p.1 p.2 := by
  constructor
  · rintro ⟨px, py, -, -, ht, hP⟩
    exact ⟨(px, py), toggles_iff.mp ht, hP⟩
  · rintro ⟨⟨px, py⟩, hp, hP⟩
    obtain ⟨hx, hy⟩ := spriteAt_bounds hp
    exact ⟨px, py, hx, hy, toggles_iff.mpr hp, hP⟩

/-! ## One draw (R161) -/

/-- The state a draw in range leaves. -/
def State.drawn (s : State) (x y : Reg) (n : Nat) : State :=
  let drawn := s.mem.drawPixels false (spriteAt s x y n)
  (({ s with mem := drawn.1, displayDirty := true } : State).setV Reg.vf (collisionFlag drawn.2)).advance

theorem exec_drw_of_le (h : n = 0 ∨ s.i.toNat + n - 1 ≤ 0xFFF) : exec (.drw x y n) s = .next (s.drawn x y n) := by
  have hr : inRange s.i.toNat n = true := by
    rw [inRange_iff]
    omega
  simp only [exec, execDrw, State.load_of_inRange hr]
  rfl

theorem lit_drawn (hn : n ≤ 15) (hx : px < 64) :
    lit (s.drawn x y n) px py = (lit s px py ^^ toggles s x y n px py) := by
  rw [toggles_eq_decide]
  exact Memory.pixel_drawPixels _ s.mem false (nodup_spriteAt hn) (fun _ hp => (spriteAt_bounds hp).1) hx

theorem val_drawn_vf (s : State) (x y : Reg) (n : Nat) :
    val (s.drawn x y n) 15 = (s.mem.drawPixels false (spriteAt s x y n)).2.toNat := by
  have flag : (s.drawn x y n).getV 15 = collisionFlag (s.mem.drawPixels false (spriteAt s x y n)).2 :=
    State.getV_setV_same _ Reg.vf _
  rw [val, flag, collisionFlag, flagByte_toNat]

theorem val_drawn_vf_le_one (s : State) (x y : Reg) (n : Nat) : val (s.drawn x y n) 15 ≤ 1 := by
  rw [val_drawn_vf]
  exact Bool.toNat_le _

/-- VF is 1 exactly when a toggled pixel was lit. -/
theorem val_drawn_vf_eq_one_iff (hn : n ≤ 15) : val (s.drawn x y n) 15 = 1 ↔
    ∃ px py, px < 64 ∧ py < 32 ∧ toggles s x y n px py = true ∧ lit s px py = true := by
  rw [val_drawn_vf, Bool.toNat_eq_one, exists_toggles_iff,
    Memory.collided_drawPixels _ s.mem false (nodup_spriteAt hn) fun _ hp => (spriteAt_bounds hp).1]
  simp only [Bool.false_eq_true, false_or]
  rfl

theorem changesOnly_drawn (s : State) (x y : Reg) (n : Nat) :
    ChangesOnly ([.v 15, .pc, .displayDirty] ++ drawnItems s x y n) s (s.drawn x y n) := by
  intro p hp
  simp only [List.mem_append, List.mem_cons, List.not_mem_nil, or_false, not_or] at hp
  obtain ⟨⟨hvf, hpc, hdirty⟩, hmem⟩ := hp
  cases p
  case v k => exact State.getV_setV_ne _ _ fun e => hvf (by rw [e])
  case pc => exact absurd rfl hpc
  case displayDirty => exact absurd rfl hdirty
  case mem a =>
    refine Memory.read_drawPixels _ _ _ fun q hq e => hmem ?_
    rw [e]
    exact mem_drawnItems hq
  all_goals rfl

theorem decodeWord_drw (x y : Reg) (hn : n ≤ 15) : decodeWord (wordXyn 0xD x y n) = .instr (.drw x y n) := by
  have e : (BitVec.ofNat 4 n).toNat = n := by
    rw [BitVec.toNat_ofNat]
    omega
  refine decodeWord_of_encode_eq ((wordXYN_eq_wordXyn 0xD x y (BitVec.ofNat 4 n)).trans ?_) ?_
  · rw [e]
    rfl
  · simpa [Instr.wellFormed] using hn

end

/-- Settles O46, from the state a draw leaves. -/
theorem drawXorsTheSprite : Obligations.DrawXorsTheSprite := by
  refine fun s x y n hn => ⟨decodeWord_drw x y hn, fun h => ?_, fun hpos h => exec_of_addressFault ⟨hpos, h⟩⟩
  exact ⟨_, exec_drw_of_le h, rfl, rfl, fun px py hx _ => lit_drawn hn hx, val_drawn_vf_eq_one_iff hn,
    val_drawn_vf_le_one s x y n, changesOnly_drawn s x y n⟩

/-! ## A second draw at the same place (R162, R165) -/

/-- Each bit of a framebuffer byte is a screen pixel (R44). -/
theorem read_eq_of_lit_eq (h : ∀ px py, px < 64 → py < 32 → lit t px py = lit s px py) {a : Nat} (ha : InFb a) :
    t.mem.read a = s.mem.read a := by
  unfold InFb at ha
  refine BitVec.eq_of_getLsbD_eq fun k hk => ?_
  have same := h ((a - 0x0A0) % 8 * 8 + (7 - k)) ((a - 0x0A0) / 8) (by omega) (by omega)
  have addr : 0x0A0 + (a - 0x0A0) / 8 * 8 + ((a - 0x0A0) % 8 * 8 + (7 - k)) / 8 = a := by omega
  have bit : 7 - ((a - 0x0A0) % 8 * 8 + (7 - k)) % 8 = k := by omega
  simpa only [lit, addr, bit] using same

section

variable {x y : Reg} {n : Nat}

theorem read_drawn_outside (s : State) (x y : Reg) (n : Nat) {a : Nat} (ha : ¬ InFb a) :
    (s.drawn x y n).mem.read a = s.mem.read a := by
  refine Memory.read_drawPixels _ _ _ fun p hp e => ha ?_
  obtain ⟨hx, hy⟩ := spriteAt_bounds hp
  simp only [InFb, e, pixelAddr, Config.fbBase]
  omega

theorem val_drawn_of_ne (s : State) (x y : Reg) (n : Nat) {r : Reg} (hr : r ≠ 15) : val (s.drawn x y n) r = val s r :=
  congrArg BitVec.toNat (State.getV_setV_ne _ _ hr)

/-- The draw leaves what it is given: the coordinates and the bits of the sprite. -/
theorem toggles_drawn (hx : x ≠ 15) (hy : y ≠ 15) (hs : ∀ r, r < n → ¬ InFb (s.i.toNat + r)) (px py : Nat) :
    toggles (s.drawn x y n) x y n px py = toggles s x y n px py := by
  have bits : ∀ r c, r < n → spriteBit (s.drawn x y n) r c = spriteBit s r c := fun r c hr =>
    congrArg (BitVec.getLsbD · (7 - c)) (read_drawn_outside s x y n (hs r hr))
  rw [Bool.eq_iff_iff, toggles_iff, toggles_iff, mem_spriteAt, mem_spriteAt, val_drawn_of_ne s x y n hx,
    val_drawn_of_ne s x y n hy]
  refine exists_congr fun r => exists_congr fun c => and_congr_right fun hr => ?_
  rw [bits r c hr]

/-- Toggling every pixel of the sprite twice leaves every pixel as it was. -/
theorem lit_drawn_drawn (hn : n ≤ 15) (hx : x ≠ 15) (hy : y ≠ 15) (hs : ∀ r, r < n → ¬ InFb (s.i.toNat + r))
    {px : Nat} (py : Nat) (hpx : px < 64) : lit ((s.drawn x y n).drawn x y n) px py = lit s px py := by
  rw [lit_drawn hn hpx, lit_drawn hn hpx, toggles_drawn hx hy hs, Bool.xor_assoc, Bool.xor_self, Bool.xor_false]

theorem read_drawn_drawn (hn : n ≤ 15) (hx : x ≠ 15) (hy : y ≠ 15) (hs : ∀ r, r < n → ¬ InFb (s.i.toNat + r))
    (a : Nat) : ((s.drawn x y n).drawn x y n).mem.read a = s.mem.read a := by
  by_cases ha : InFb a
  · exact read_eq_of_lit_eq (fun _ py hpx _ => lit_drawn_drawn hn hx hy hs py hpx) ha
  · rw [read_drawn_outside _ x y n ha, read_drawn_outside s x y n ha]

/-- The second draw collides exactly when the first lit a pixel (assumption 9). -/
theorem val_drawn_drawn_vf_eq_one_iff (hn : n ≤ 15) (hx : x ≠ 15) (hy : y ≠ 15)
    (hs : ∀ r, r < n → ¬ InFb (s.i.toNat + r)) : val ((s.drawn x y n).drawn x y n) 15 = 1 ↔
      ∃ px py, px < 64 ∧ py < 32 ∧ toggles s x y n px py = true ∧ lit s px py = false := by
  rw [val_drawn_vf_eq_one_iff hn]
  refine exists_congr fun px => exists_congr fun py => and_congr_right fun hpx => and_congr_right fun _ => ?_
  rw [toggles_drawn hx hy hs, lit_drawn hn hpx]
  refine and_congr_right fun ht => ?_
  rw [ht, Bool.xor_true, Bool.not_eq_true']

/-- On a dark footprint a draw does not collide. -/
theorem val_drawn_vf_of_dark (hn : n ≤ 15)
    (dark : ∀ px py, px < 64 → py < 32 → toggles s x y n px py = true → lit s px py = false) :
    val (s.drawn x y n) 15 = 0 := by
  have no_collision : val (s.drawn x y n) 15 ≠ 1 := fun h => by
    obtain ⟨px, py, hx, hy, ht, hl⟩ := (val_drawn_vf_eq_one_iff hn).mp h
    rw [dark px py hx hy ht] at hl
    cases hl
  have := val_drawn_vf_le_one s x y n
  omega

end

/-- Settles O47: the second draw toggles the pixels the first toggled. -/
theorem drawingTwiceRestoresTheScreen : Obligations.DrawingTwiceRestoresTheScreen := by
  intro s t u x y n hn hx hy h hs ht hu
  rw [exec_drw_of_le h] at ht
  cases ht
  rw [exec_drw_of_le (s := s.drawn x y n) h] at hu
  cases hu
  have collides := val_drawn_drawn_vf_eq_one_iff hn hx hy hs
  refine ⟨read_drawn_drawn hn hx hy hs, rfl, collides, fun dark => ⟨val_drawn_vf_of_dark hn dark, ?_⟩⟩
  rintro ⟨r, c, hr, hc, hb⟩
  have hp : ((val s x + c) % 64, (val s y + r) % 32) ∈ spriteAt s x y n := mem_spriteAt.mpr ⟨r, c, hr, hc, hb, rfl⟩
  obtain ⟨hpx, hpy⟩ := spriteAt_bounds hp
  have toggled := toggles_iff.mpr hp
  exact collides.mpr ⟨_, _, hpx, hpy, toggled, dark _ _ hpx hpy toggled⟩

end Sys2Proof.Machine
end

section
/-! The rules of spec/45_keypad_and_timers.md: the key skips, the wait for a key, and the moves between a register and
the timers. -/

namespace Sys2Proof.Machine

open Sys2Proof.Spec

variable {s : State}

/-! ## The wait for a key (R172, R177) -/

theorem exec_ldVxK_of_no_key (x : Reg) (h : s.input.keys = 0) : exec (.ldVxK x) s = .next s := by
  simp only [exec, execLdVxK, lowestKey_none.mpr h]

/-- With a key down the least one is written; its number is below 16, so its byte holds it whole. -/
theorem exec_ldVxK_of_key (x : Reg) (h : s.input.keys ≠ 0) :
    ∃ t k, exec (.ldVxK x) s = .next t ∧ k < 16 ∧ s.input.keys.getLsbD k = true ∧
      (∀ j, j < k → s.input.keys.getLsbD j = false) ∧ val t x = k ∧ t.pc = s.pc + 2 ∧
      ChangesOnly [.v x, .pc] s t := by
  obtain ⟨k, hk⟩ := Option.ne_none_iff_exists'.mp (lowestKey_none.not.mpr h)
  have he : exec (.ldVxK x) s = .next (s.setV x (BitVec.ofNat 8 k)).advance := by
    simp only [exec, execLdVxK, hk]
  obtain ⟨hlt, down, least⟩ := lowestKey_some hk
  refine ⟨_, k, he, hlt, down, least, ?_, rfl, changesOnly_setV_advance s x _⟩
  rw [val, getV_setV_advance_same, BitVec.toNat_ofNat]
  omega

/-- A Step that executes the wait has status OK, because the wait raises no fault. -/
theorem step_ldVxK_ends_ok {x : Reg} (hi : Executes s (.ldVxK x)) :
    ∃ u, exec (.ldVxK x) s.beforeFetch = .next u ∧ step s = .next (u.endStep .ok) := by
  obtain ⟨u, hu⟩ := exec_next (.ldVxK x) s.beforeFetch
  have halt : u.halt = none := by
    obtain ⟨_, hc, -⟩ | ⟨-, kept⟩ := exec_cases hu
    · exact hc.elim
    · exact kept.trans hi.1
  exact ⟨u, hu, by rw [step_of_executes hi hu, haltStatus_of_none halt]⟩

/-- Settles O48: with no key down the Step leaves Halt, PC and memory, on which alone the next instruction depends. -/
theorem waitForKeyTakesTheLowestKey : Obligations.WaitForKeyTakesTheLowestKey := by
  refine fun s x => ⟨decodeWord_of_encode_eq (wordXKK_eq_wordXkk 0xF x 0x0A) rfl,
    fun h => ⟨s, exec_ldVxK_of_no_key x h, changesOnly_refl _ s⟩, exec_ldVxK_of_key x, fun hi => ?_⟩
  obtain ⟨u, hu, hs⟩ := step_ldVxK_ends_ok hi
  refine ⟨_, hs, u.endStep_status .ok, fun noKey => ?_⟩
  obtain rfl : s.beforeFetch = u := by
    rw [exec_ldVxK_of_no_key (s := s.beforeFetch) x noKey] at hu
    cases hu
    rfl
  exact hi.congr (by simp) (by simp) (by simp)

/-! ## The key skips (R170, R171, R176) -/

theorem not_keyDown_iff (s : State) (x : Reg) : (!s.keyDown x) = true ↔ ¬ keyBit s x = true := by
  rw [keyDown_eq_keyBit, Bool.not_eq_true', Bool.not_eq_true]

/-- Settles O31: the key tested is bit Vx mod 16 of the keys. -/
theorem keySkips : Obligations.KeySkips := fun s x =>
  ⟨decodeWord_of_encode_eq (wordXKK_eq_wordXkk 0xE x 0x9E) rfl,
    decodeWord_of_encode_eq (wordXKK_eq_wordXkk 0xE x 0xA1) rfl,
    exec_skip rfl (by rw [keyDown_eq_keyBit]), exec_skip_not rfl (not_keyDown_iff s x)⟩

/-! ## The timers (R173 to R175) -/

/-- The frame of an instruction that raises no fault and writes PC and one item. -/
theorem changesOnly_of_mayWrite_pair {i : Instr} {t : State} {q : Item} (h : exec i s = .next t)
    (hn : ∀ c, ¬ Raises i s c) (hw : ∀ p, MayWrite i s p → p = .pc ∨ p = q) : ChangesOnly [q, .pc] s t :=
  changesOnly_of_exec h hn fun p hp => List.mem_pair.mpr (hw p hp).symm

/-- Settles O49: each timer is an item of its own, so a move to it leaves AudioTrigger. -/
theorem timerMoves : Obligations.TimerMoves := fun s x =>
  ⟨decodeWord_of_encode_eq (wordXKK_eq_wordXkk 0xF x 0x07) rfl,
    decodeWord_of_encode_eq (wordXKK_eq_wordXkk 0xF x 0x15) rfl,
    decodeWord_of_encode_eq (wordXKK_eq_wordXkk 0xF x 0x18) rfl,
    ⟨_, rfl, getV_setV_advance_same s x s.dt, rfl, changesOnly_setV_advance s x s.dt⟩,
    ⟨_, rfl, rfl, rfl, changesOnly_of_mayWrite_pair (i := .ldDtVx x) rfl (fun _ => id) fun _ => id⟩,
    ⟨_, rfl, rfl, rfl, changesOnly_of_mayWrite_pair (i := .ldStVx x) rfl (fun _ => id) fun _ => id⟩⟩

end Sys2Proof.Machine
end

section
/-! The rules of spec/60_exceptions.md: which Steps raise which fault, what a fault leaves, the halted machine, and the
instructions to which the inputs of a Step matter. -/

namespace Sys2Proof.Machine

open Sys2Proof.Spec

variable {s t : State} {i : Instr} {c : Cause}

/-! ## The fault of an instruction (R190) -/

theorem raises_unique {c' : Cause} (h : Raises i s c) (h' : Raises i s c') : c = c' := by
  cases c
  case addressFault => exact (eq_addressFault_of_raises h h').symm
  case stackOverflow | stackUnderflow =>
    cases i
    case call | ret =>
      cases c' <;> simp_all [Raises]
    all_goals exact h.elim

/-- The causes of a fault read SP and I alone, which phases 1 to 3 leave. -/
theorem raises_beforeFetch (i : Instr) (s : State) (c : Cause) : Raises i s.beforeFetch c ↔ Raises i s c := by
  cases i <;> cases c <;> rfl

/-! ## Which Step raises a fault, and what it leaves (R190, R193, R195) -/

/-- The Step from `s` raises `c`, in its fetch or by the instruction it executes. -/
def StepRaises (s : State) (c : Cause) : Prop :=
  (c = .addressFault ∧ 0xFFE < s.pc.toNat) ∨ ∃ i, Executes s i ∧ Raises i s c

theorem stepRaises_of_fetch_none (hf : s.fetch = none) : StepRaises s c ↔ c = .addressFault := by
  refine ⟨?_, fun hc => .inl ⟨hc, (fetch_eq_none_iff s).mp hf⟩⟩
  rintro (⟨hc, -⟩ | ⟨i, ⟨-, op, hop, -⟩, -⟩)
  · exact hc
  · rw [hf] at hop; cases hop

theorem stepRaises_of_executes (hi : Executes s i) : StepRaises s c ↔ Raises i s c := by
  refine ⟨?_, fun hc => .inr ⟨i, hi, hc⟩⟩
  rintro (⟨-, hp⟩ | ⟨j, hj, hc⟩)
  · obtain ⟨-, op, hop, -⟩ := hi
    exact absurd (State.pc_le_of_fetch hop) (by omega)
  · exact executes_unique hj hi ▸ hc

theorem not_stepRaises_of_unknown {op : Word} (hf : s.fetch = some op) (hd : decodeWord op = .unknown op) :
    ¬ StepRaises s c := by
  rintro (⟨-, hp⟩ | ⟨i, ⟨-, op', hop, hi⟩, -⟩)
  · exact absurd (State.pc_le_of_fetch hf) (by omega)
  · rw [hf] at hop; cases hop
    rw [hd] at hi; cases hi

/-- A Step of a running machine raises one fault, and leaves what phases 1 to 3 left with Halt set, or it raises none
and the machine runs on. -/
theorem step_raises_cases (hh : s.halt = none) (h : step s = .next t) :
    (∃ c, (∀ c', StepRaises s c' ↔ c' = c) ∧ t = (s.beforeFetch.raise c).endStep (statusOf c)) ∨
    ((∀ c, ¬ StepRaises s c) ∧ t.halt = none) := by
  obtain ⟨c, hc, -⟩ | ⟨-, hf, e⟩ | ⟨-, op, hf, hd, e⟩ | ⟨i, u, hi, hu, e⟩ := step_cases s
  · rw [hh] at hc; cases hc
  all_goals rw [e] at h; cases h
  · exact .inl ⟨.addressFault, fun _ => stepRaises_of_fetch_none hf, rfl⟩
  · exact .inr ⟨fun _ => not_stepRaises_of_unknown hf hd, by simp [State.unknownOpcode, hh]⟩
  · simp only [stepRaises_of_executes hi]
    obtain ⟨c, hc, rfl⟩ | ⟨hn, halt⟩ := exec_cases hu
    · rw [raises_beforeFetch] at hc
      exact .inl ⟨c, fun c' => ⟨fun hc' => raises_unique hc' hc, fun e => e ▸ hc⟩,
        by rw [haltStatus_of_some (State.raise_halt ..)]⟩
    · exact .inr ⟨fun c hc => hn c ((raises_beforeFetch i s c).mpr hc), by simp [halt, hh]⟩

theorem step_halt_iff (hh : s.halt = none) (h : step s = .next t) : t.halt = some c ↔ StepRaises s c := by
  obtain ⟨c', hc', rfl⟩ | ⟨hn, halt⟩ := step_raises_cases hh h
  · simp [hc', eq_comm]
  · simp [hn, halt]

theorem eq_of_step_halt (hh : s.halt = none) (h : step s = .next t) (hc : t.halt = some c) :
    t = (s.beforeFetch.raise c).endStep (statusOf c) := by
  obtain ⟨c', -, rfl⟩ | ⟨-, halt⟩ := step_raises_cases hh h
  · obtain rfl : c' = c := by simpa using hc
    rfl
  · rw [halt] at hc; cases hc

theorem stepRaises_stackOverflow_iff : StepRaises s .stackOverflow ↔ s.sp = 15 ∧ ∃ nnn, Executes s (.call nnn) := by
  constructor
  · rintro (⟨hc, -⟩ | ⟨i, hi, full⟩)
    · cases hc
    · cases i
      case call nnn => exact ⟨full, nnn, hi⟩
      all_goals exact full.elim
  · rintro ⟨full, nnn, hi⟩
    exact (stepRaises_of_executes hi).mpr full

theorem stepRaises_stackUnderflow_iff : StepRaises s .stackUnderflow ↔ s.sp = -1 ∧ Executes s .ret := by
  constructor
  · rintro (⟨hc, -⟩ | ⟨i, hi, empty⟩)
    · cases hc
    · cases i
      case ret => exact ⟨empty, hi⟩
      all_goals exact empty.elim
  · rintro ⟨empty, hi⟩
    exact (stepRaises_of_executes hi).mpr empty

/-- The four places of the address fault (R193): the fetch, LD B, the dump and the load of registers, DRW. -/
theorem stepRaises_addressFault_iff : StepRaises s .addressFault ↔
    0xFFE < s.pc.toNat ∨
    (∃ x, Executes s (.ldB x) ∧ 0xFFF < s.i.toNat + 2) ∨
    (∃ x : Reg, (Executes s (.storeRegs x) ∨ Executes s (.loadRegs x)) ∧ 0xFFF < s.i.toNat + x.val) ∨
    ∃ x y n, Executes s (.drw x y n) ∧ 0 < n ∧ 0xFFF < s.i.toNat + n - 1 := by
  constructor
  · rintro (⟨-, beyond⟩ | ⟨i, hi, beyond⟩)
    · exact .inl beyond
    · cases i
      case ldB x => exact .inr (.inl ⟨x, hi, beyond⟩)
      case storeRegs x => exact .inr (.inr (.inl ⟨x, .inl hi, beyond⟩))
      case loadRegs x => exact .inr (.inr (.inl ⟨x, .inr hi, beyond⟩))
      case drw x y n => exact .inr (.inr (.inr ⟨x, y, n, hi, beyond⟩))
      all_goals exact beyond.elim
  · rintro (beyond | ⟨x, hi, beyond⟩ | ⟨x, hi | hi, beyond⟩ | ⟨x, y, n, hi, beyond⟩)
    · exact .inl ⟨rfl, beyond⟩
    all_goals exact (stepRaises_of_executes hi).mpr beyond

/-- Settles O15: the cause in Halt is the fault the Step raises, in its fetch or by its instruction. -/
theorem faultsHaveExactlyTheirCauses : Obligations.FaultsHaveExactlyTheirCauses := fun _ _ hh h =>
  ⟨(step_halt_iff hh h).trans stepRaises_stackOverflow_iff, (step_halt_iff hh h).trans stepRaises_stackUnderflow_iff,
    (step_halt_iff hh h).trans stepRaises_addressFault_iff⟩

theorem beforeFetch_raise_endStep_changesOnly (s : State) (c : Cause) (r : Status) :
    ChangesOnly (.halt :: stepItems) s ((s.beforeFetch.raise c).endStep r) := by
  have before : ChangesOnly stepItems s s.beforeFetch := fun _ => beforeFetch_frame s
  have raised : ChangesOnly (.halt :: stepItems) s (s.beforeFetch.raise c) :=
    before.trans (changesOnly_raise _ c) (by decide) (by decide)
  exact raised.trans (endStep_changesOnly _ r) (by decide) (by decide)

/-- Settles O16: the state a faulting Step leaves is what phases 1 to 3 left, with Halt set. -/
theorem faultsArePrecise : Obligations.FaultsArePrecise := by
  intro s t c hh h hc
  obtain rfl := eq_of_step_halt hh h hc
  refine ⟨?_, ?_, ?_, ?_, ?_, beforeFetch_raise_endStep_changesOnly s c _⟩
  · simp
  · simp
  · simp [beforeFetch_audioTrigger_iff]
  · simp [beforeFetch_dt_toNat]
  · simp [beforeFetch_st_toNat]

/-! ## The halted machine (R27, R81, R196) -/

theorem loadProgram_halt (bytes : List Byte) (s : State) : (loadProgram bytes s).2.halt = s.halt := by
  unfold loadProgram
  split <;> rfl

/-- Any number of Steps of a halted machine, by induction on it: the first Step leaves a state halted by the same
cause. -/
theorem run_of_halted (k : Nat) (h : s.halt = some c) :
    ∃ t, core.run k s = .next t ∧ t.halt = some c ∧
      ChangesOnly (.displayDirty :: .audioTrigger :: portItems) s t := by
  induction k generalizing s with
  | zero => exact ⟨s, rfl, h, changesOnly_refl _ s⟩
  | succ k ih =>
    obtain ⟨u, firstStep, -, -, -, frame⟩ := haltedStepDoesNothing s c h
    have halt : u.halt = s.halt := frame .halt (by decide)
    obtain ⟨t, run, thalt, tframe⟩ := ih (halt.trans h)
    exact ⟨t, (core_run_succ firstStep).trans run, thalt,
      frame.trans tframe (List.Subset.refl _) (List.Subset.refl _)⟩

/-- Settles O17: no Step and no LoadProgram writes the Halt of a halted machine. -/
theorem haltIsStickyUntilReset : Obligations.HaltIsStickyUntilReset := fun k s _ h =>
  ⟨run_of_halted k h, fun bytes => (loadProgram_halt bytes s).trans h, rfl⟩

/-! ## The inputs of a Step (R207, R208) -/

/-- The state with other inputs for the Step about to run. -/
def State.withInput (s : State) (inp : StepInput) : State := { s with input := inp }

namespace State

variable (s : State) (inp : StepInput)

@[simp] theorem withInput_i : (s.withInput inp).i = s.i := rfl
@[simp] theorem withInput_pc : (s.withInput inp).pc = s.pc := rfl
@[simp] theorem withInput_depth : (s.withInput inp).depth = s.depth := rfl
@[simp] theorem withInput_mem : (s.withInput inp).mem = s.mem := rfl
@[simp] theorem withInput_input : (s.withInput inp).input = inp := rfl
@[simp] theorem getV_withInput (x : Reg) : (s.withInput inp).getV x = s.getV x := rfl

theorem getVs_withInput (x : Reg) : (s.withInput inp).getVs x = s.getVs x := rfl

theorem load_withInput (a n : Nat) : (s.withInput inp).load a n = s.load a n := rfl

theorem setVs_withInput (k : Nat) (bytes : List Byte) :
    (s.withInput inp).setVs k bytes = (s.setVs k bytes).withInput inp := by
  induction bytes generalizing s k with
  | nil => rfl
  | cons b bs ih => rw [setVs, setVs, ← ih]; split <;> rfl

theorem store_withInput (a : Nat) (bytes : List Byte) :
    (s.withInput inp).store a bytes = (s.store a bytes).map fun t => t.withInput inp := by
  unfold store; split <;> rfl

theorem push_withInput (w : Word) : (s.withInput inp).push w = (s.push w).map fun t => t.withInput inp := by
  by_cases h : s.depth.val < 16 <;> simp [push, withInput, h]

theorem pop_withInput : (s.withInput inp).pop = s.pop.map fun q => (q.1, q.2.withInput inp) := by
  unfold pop
  rw [withInput_depth]
  split <;> rfl

theorem keyDown_withInput {inp : StepInput} (h : inp.keys = s.input.keys) (x : Reg) :
    (s.withInput inp).keyDown x = s.keyDown x := by
  simp [keyDown, h]

/-- The end of a Step drops the inputs the Step had. -/
theorem endStep_withInput (r : Status) : (s.withInput inp).endStep r = s.endStep r := rfl

end State

/-- Two inputs agree in what instruction `i` uses of them. -/
def AgreeWhereUsed (i : Instr) (a b : StepInput) : Prop :=
  (UsesKeys i → a.keys = b.keys) ∧ (UsesRnd i → a.rnd = b.rnd)

/-- What an instruction does commutes with inputs that agree where it uses them. -/
theorem exec_withInput {inp : StepInput} (agree : AgreeWhereUsed i inp s.input) (h : exec i s = .next t) :
    exec i (s.withInput inp) = .next (t.withInput inp) := by
  obtain ⟨agreeKeys, agreeRnd⟩ := agree
  cases i
  case skp x =>
    cases h
    simp only [exec, execSkp, State.keyDown_withInput s (agreeKeys ⟨x, .inl rfl⟩)]
    rfl
  case sknp x =>
    cases h
    simp only [exec, execSknp, State.keyDown_withInput s (agreeKeys ⟨x, .inr (.inl rfl)⟩)]
    rfl
  case ldVxK x =>
    simp only [exec, execLdVxK, State.withInput_input, agreeKeys ⟨x, .inr (.inr rfl)⟩] at h ⊢
    split at h <;> cases h <;> rfl
  case rnd x kk =>
    cases h
    simp only [exec, execRnd, State.withInput_input, agreeRnd ⟨x, kk, rfl⟩]
    rfl
  case ret | call | ldB | storeRegs =>
    simp only [exec, execRet, execCall, execLdB, execStoreRegs, State.pop_withInput, State.push_withInput,
      State.store_withInput, State.withInput_pc, State.withInput_i, State.getV_withInput, State.getVs_withInput] at h ⊢
    split at h <;> cases h <;> simp only [*] <;> rfl
  case loadRegs | drw =>
    simp only [exec, execLoadRegs, execDrw, State.load_withInput, State.withInput_i, State.getV_withInput,
      State.setVs_withInput] at h ⊢
    split at h <;> cases h <;> rfl
  case cls =>
    simp only [exec, execCls, State.withInput_mem] at h ⊢
    generalize s.mem.writeBytes _ _ = m at h ⊢
    cases h; rfl
  all_goals cases h; rfl

/-- A Step does not see which inputs it has, as long as they agree where the instruction it executes uses them. -/
theorem step_withInput {inp : StepInput} (agree : ∀ i, Executes s i → AgreeWhereUsed i inp s.input) :
    step (s.withInput inp) = step s := by
  obtain ⟨c, hc, -⟩ | ⟨hh, hf, e⟩ | ⟨hh, op, hf, hd, e⟩ | ⟨i, u, hi, hu, e⟩ := step_cases s
  · rw [step_of_halted hc, step_of_halted (s := s.withInput inp) hc]
    exact congrArg _ (s.clearEdges.endStep_withInput inp _)
  · rw [e, step_of_fetch_none (s := s.withInput inp) hh hf]
    exact congrArg _ ((s.beforeFetch.raise .addressFault).endStep_withInput inp _)
  · have hw := (unknownWordsMatchNoRow op).mp hd
    rw [step_of_noRow hh hf hw, step_of_noRow (s := s.withInput inp) hh hf hw]
    exact congrArg _ ((s.beforeFetch.jump (s.pc + 2)).endStep_withInput inp _)
  · have executed : exec i (s.withInput inp).beforeFetch = .next (u.withInput inp) :=
      exec_withInput (s := s.beforeFetch) (agree i hi) hu
    rw [e, step_of_executes (s := s.withInput inp) hi executed]
    exact congrArg _ (u.endStep_withInput inp _)

/-- Settles O21: inputs that differ in the keys alone agree where no key is used, and likewise for the random byte. -/
theorem inputsMatterOnlyWhereUsed : Obligations.InputsMatterOnlyWhereUsed := fun _ =>
  ⟨fun _ unused => step_withInput fun i hi => ⟨fun used => absurd used (unused i hi), fun _ => rfl⟩,
    fun _ unused => step_withInput fun i hi => ⟨fun _ => rfl, fun used => absurd used (unused i hi)⟩⟩

end Sys2Proof.Machine
end

section
/-! The rule of spec/70_reset_and_hazards.md on loading: which ROMs `LoadProgram` takes, and what it writes. -/

namespace Sys2Proof.Machine

variable {bytes : List Byte}

/-! ## LoadProgram (R222 to R224) -/

theorem loadProgram_of_length_le (s : State) (h : bytes.length ≤ 3584) :
    loadProgram bytes s = (true, { s with mem := s.mem.writeBytes 0x200 bytes }) :=
  if_neg (Nat.not_lt.mpr h)

theorem loadProgram_of_lt_length (s : State) (h : 3584 < bytes.length) : loadProgram bytes s = (false, s) :=
  if_pos h

/-- Consecutive bytes written to memory change the items at their addresses and no other. -/
theorem changesOnly_writeBytes (s : State) (a : Nat) (bytes : List Byte) :
    ChangesOnly (memItems a bytes.length) s { s with mem := s.mem.writeBytes a bytes } := by
  intro p hp
  cases p
  case mem x =>
    refine Memory.read_writeBytes_outside bytes s.mem ?_
    by_contra inside
    exact hp (mem_memItems.mpr ⟨x - a, by omega, congrArg Item.mem (by omega)⟩)
  all_goals rfl

/-- Settles O51: a ROM that fits is one write of consecutive bytes at 0x200, and a longer one is no write at all. -/
theorem loadProgramCopiesOrRejects : Obligations.LoadProgramCopiesOrRejects := by
  refine fun s bytes => ⟨fun fits => ?_, loadProgram_of_lt_length s⟩
  rw [loadProgram_of_length_le s fits]
  exact ⟨rfl, Memory.read_writeBytes_inside bytes s.mem 0x200, changesOnly_writeBytes s 0x200 bytes⟩

end Sys2Proof.Machine
end

section
/-! Two claims about the whole domain of `step` and about single words of `decodeWord`: no state is without a next one,
and the words of spec/95_test_vectors.md 2.1 decode as listed. -/

namespace Sys2Proof.Machine

/-- Settles O10: each of the four ways a Step goes (R80) ends in a next state; where an instruction is executed, that is
so because its meaning answers one. -/
theorem everyStepGivesANextState : Obligations.EveryStepGivesANextState := by
  intro s
  obtain ⟨_, -, halted⟩ | ⟨-, -, unfetchable⟩ | ⟨-, _, -, -, unknown⟩ | ⟨_, _, -, -, executed⟩ := step_cases s
  · exact ⟨_, halted⟩
  · exact ⟨_, unfetchable⟩
  · exact ⟨_, unknown⟩
  · exact ⟨_, executed⟩

/-- Settles O5: nine words without variables, so the decoder is evaluated on each. -/
theorem sampleWordsDecode : Obligations.SampleWordsDecode := by
  unfold Obligations.SampleWordsDecode
  decide

end Sys2Proof.Machine
end
